-- ==== Sys2Proof/Word.lean ====
section
/-! DEFINITION. The word types of MBCOR (00_scope.md R10 to R13). -/

namespace Sys2Proof

/-- A byte, u8 (R10). -/
abbrev Byte := BitVec 8

/-- u16 (R10). -/
abbrev Half := BitVec 16

/-- u32 (R10). -/
abbrev Word := BitVec 32

/-- A window: a finite byte sequence in wire order, index 0 first (R12). -/
abbrev Window := List Byte

end Sys2Proof
end

