-- ==== Sys2Proof/Config.lean ====
section
/-! DEFINITION. What an implementation of MBCOR fixes (00_scope.md R7, R8) and the values the spec leaves open. -/

namespace Sys2Proof

/-- The byte orders the parameter INT_BYTE_ORDER ranges over (R8). -/
inductive ByteOrder where
  | le
  | be
deriving DecidableEq, Repr

namespace Config

/-- The value of the parameter INT_BYTE_ORDER for MBCOR: LE (R8; 92_eei_decisions.md D15; 90_conflicts.md C4). It is what
`State.reset` holds in the parameter's field. Log entry 7. -/
def intByteOrder : ByteOrder := .le

/-- INTER_FRAME_TIMEOUT in ticks: OPEN (R8). No body: nothing can be proved of its value. Log entry 6. -/
opaque interFrameTimeout : Nat

/-- REQUEST_TIMEOUT_RESET = 64 × INTER_FRAME_TIMEOUT (R8; 10_state.md R32). -/
def requestTimeoutReset : Nat := 64 * interFrameTimeout

/-- STORE_INCREMENT (R7). -/
abbrev storeIncrement : Nat := 4096

/-- STORE_GROW_LIMIT (R7). -/
abbrev storeGrowLimit : Nat := 65535

/-- STORE_MAX_LEN (R7; 90_conflicts.md C3). -/
abbrev storeMaxLen : Nat := 65536

/-- FREE VALUE: the 32-bit event field for a window length of 2^32 or more, which 60_exceptions.md R153 does not
state (00_scope.md R8 leaves MAX_WINDOW unbounded). No body. Log entry 8. -/
opaque longWindowLength : Nat → Word

end Config

end Sys2Proof
end

