-- ==== Sys2Proof/Syntax.lean ====
section
/-! DEFINITION. The instructions of MBCOR: one constructor per row of spec/opcode_table.json (30_encoding.md R63, R71, R72,
R78). The fourteen command rows are what the host issues. The nine wire rows (W_ and A_) are the frame classes that STEP and
READ decode a window to; the host never issues one (log entry 10). -/

namespace Sys2Proof

/-- The fields of a request frame (30_encoding.md R64, R65); `crc` is the received trailer crcRx. -/
structure RequestFrame where
  dev   : Byte
  start : Half
  count : Half
  crc   : Half
deriving DecidableEq, Repr

/-- The fields of an exception frame (R68, R69); `crc` is the received trailer, which no rule checks. -/
structure ExceptionFrame where
  dev  : Byte
  fc   : Byte
  code : Byte
  crc  : Half
deriving DecidableEq, Repr

/-- The fields of a response frame (R66, R67); the byte count is the length of `data`, `crc` the received trailer crcRx. -/
structure ResponseFrame where
  dev  : Byte
  fc   : Byte
  data : Window
  crc  : Half
deriving DecidableEq, Repr

/-- What a window is in state Idle (R71): the class, its fields and the bytes after the frame. A discarded window is given by
the bytes its event names and the rest. -/
inductive IdleFrame where
  | empty
  | short (dev : Byte) (rest : Window)
  | request (q : RequestFrame) (rest : Window)
  | exception (e : ExceptionFrame) (rest : Window)
  | noise (dev fc : Byte) (rest : Window)
deriving DecidableEq, Repr

/-- What the assembly buffer with the window appended is in state AwaitingResponse (R72). -/
inductive AwaitFrame where
  | holdShort (a : Window)
  | exception (e : ExceptionFrame) (rest : Window)
  | holdIncomplete (a : Window)
  | response (r : ResponseFrame) (rest : Window)
deriving DecidableEq, Repr

/-- One constructor per row of spec/opcode_table.json. -/
inductive Instr where
  /-- STEP (41_correlator.md R97). -/
  | step (win : Window) (now : Nat)
  /-- READ (R115). -/
  | read (win : Window) (now : Nat)
  /-- CRC16 (40_crc.md R92). -/
  | crc16 (win : Window)
  /-- EXTEND (42_register_store.md R129). -/
  | extend (dev : Byte) (size : Word)
  /-- GETF32 (43_accessors.md R139). -/
  | getf32 (dev : Byte) (idx : Half)
  /-- GETI16 (R136). -/
  | geti16 (dev : Byte) (idx : Half)
  /-- GETU16 (R135). -/
  | getu16 (dev : Byte) (idx : Half)
  /-- GETI32 (R138). -/
  | geti32 (dev : Byte) (idx : Half)
  /-- GETU32 (R137). -/
  | getu32 (dev : Byte) (idx : Half)
  /-- DUMP (R142). -/
  | dump (dev : Byte)
  /-- CFGW (44_control.md R144). -/
  | cfgw (idx : Half) (value : Word)
  /-- CFGR (R146). -/
  | cfgr (idx : Half)
  /-- RESET (R150). -/
  | reset
  /-- ILLEGAL: a command with an unassigned OP (30_encoding.md R79, 44_control.md R148). -/
  | illegal (op : Byte)
  /-- W_EMPTY (41_correlator.md R100). -/
  | wEmpty
  /-- W_SHORT (R104). -/
  | wShort (dev : Byte) (rest : Window)
  /-- W_REQUEST (R101). -/
  | wRequest (frame : RequestFrame) (rest : Window) (now : Nat)
  /-- W_EXCEPTION_IDLE (R103). -/
  | wExceptionIdle (frame : ExceptionFrame) (rest : Window)
  /-- W_NOISE (R104). -/
  | wNoise (dev fc : Byte) (rest : Window)
  /-- A_HOLD_SHORT (R106). -/
  | aHoldShort (buf : Window)
  /-- A_EXCEPTION (R107). -/
  | aException (frame : ExceptionFrame) (rest : Window)
  /-- A_HOLD_INCOMPLETE (R108). -/
  | aHoldIncomplete (buf : Window)
  /-- A_RESPONSE (R109). -/
  | aResponse (frame : ResponseFrame) (rest : Window)
deriving DecidableEq, Repr

/-- The table row of an Idle class; NOW is the operand a captured request records (41_correlator.md R101). -/
def IdleFrame.toInstr (now : Nat) : IdleFrame → Instr
  | .empty => .wEmpty
  | .short dev rest => .wShort dev rest
  | .request q rest => .wRequest q rest now
  | .exception e rest => .wExceptionIdle e rest
  | .noise dev fc rest => .wNoise dev fc rest

/-- The table row of an AwaitingResponse class. -/
def AwaitFrame.toInstr : AwaitFrame → Instr
  | .holdShort a => .aHoldShort a
  | .exception e rest => .aException e rest
  | .holdIncomplete a => .aHoldIncomplete a
  | .response r rest => .aResponse r rest

/-- One command as the host presents it: the word CMD and the operand ports WIN and NOW (30_encoding.md R76). -/
structure Command where
  cmd : BitVec 64
  win : Window
  now : Nat
deriving DecidableEq, Repr

/-- Whether an instruction is one the host issues (30_encoding.md R78, R79), not a wire-frame class. -/
def Instr.isCommand : Instr → Bool
  | .step _ _ | .read _ _ | .crc16 _ | .extend _ _ | .getf32 _ _ | .geti16 _ _ | .getu16 _ _ | .geti32 _ _ | .getu32 _ _
  | .dump _ | .cfgw _ _ | .cfgr _ | .reset | .illegal _ => true
  | .wEmpty | .wShort _ _ | .wRequest _ _ _ | .wExceptionIdle _ _ | .wNoise _ _ _ | .aHoldShort _ | .aException _ _
  | .aHoldIncomplete _ | .aResponse _ _ => false

end Sys2Proof
end

