-- ==== Sys2Proof/WellFormed.lean ====
section
/-! DEFINITION. Which terms of Instr an encoding can give: the conditions of the opcode table's rows (30_encoding.md R71, R72,
R78, R79). -/

namespace Sys2Proof

/-- The OP values of 30_encoding.md R78. -/
def assignedOpcodes : List Byte :=
  [0x01, 0x02, 0x03, 0x10, 0x20, 0x21, 0x22, 0x23, 0x24, 0x28, 0x30, 0x31, 0xFF]

/-- Byte 1 of a window, the function code; absent in a window of fewer than two bytes (R71). -/
def functionCode? : Window → Option Byte
  | _ :: fc :: _ => some fc
  | _ => none

/-- Byte 2 of a window, the byte count of a response (R66). -/
def byteCount? : Window → Option Byte
  | _ :: _ :: bc :: _ => some bc
  | _ => none

/-- The exception test: function code above 0x80, not "bit 7 set" (R74; 90_conflicts.md C5). -/
def isExceptionCode (fc : Byte) : Bool := decide (fc > 0x80)

/-- A row's own condition (spec/opcode_table.json, "condition"; R71, R72, R79). -/
def Instr.wf : Instr → Bool
  | .illegal op => !assignedOpcodes.contains op
  | .wShort _ rest => decide (rest.length ≤ 3)
  | .wExceptionIdle e _ => isExceptionCode e.fc
  | .wNoise _ fc rest => decide (3 ≤ rest.length) && !isExceptionCode fc && !decide (fc = 0x04 ∧ 6 ≤ rest.length)
  | .aHoldShort a => decide (a.length ≤ 4)
  | .aException e _ => isExceptionCode e.fc
  | .aHoldIncomplete a =>
    decide (5 ≤ a.length) && (match functionCode? a, byteCount? a with
      | some fc, some bc => !isExceptionCode fc && decide (a.length < bc.toNat + 5)
      | _, _ => false)
  | .aResponse r _ => !isExceptionCode r.fc && decide (r.data.length ≤ 255)
  | .step _ _ | .read _ _ | .crc16 _ | .extend _ _ | .getf32 _ _ | .geti16 _ _ | .getu16 _ _ | .geti32 _ _ | .getu32 _ _
  | .dump _ | .cfgw _ _ | .cfgr _ | .reset | .wEmpty | .wRequest _ _ _ => true

end Sys2Proof
end

