-- ==== Sys2Proof/Decode.lean ====
section
/-! DEFINITION. The two decoders of MBCOR (30_encoding.md R63): the command word (R76 to R81) and the wire frames by correlator
state (R71, R72), each total; and the encoder, written from the same tables. An unassigned OP decodes to the row ILLEGAL, which
is how the command decoder rejects by name. -/

namespace Sys2Proof

/-! ### Byte order (00_scope.md R13) -/

/-- `be16`: the first byte is the high one. -/
def be16 (b0 b1 : Byte) : Half := b0 ++ b1

/-- `le16`: the first byte is the low one. -/
def le16 (b0 b1 : Byte) : Half := b1 ++ b0

/-- `be32`. -/
def be32 (b0 b1 b2 b3 : Byte) : Word := b0 ++ b1 ++ (b2 ++ b3)

/-- `le32`. -/
def le32 (b0 b1 b2 b3 : Byte) : Word := b3 ++ b2 ++ (b1 ++ b0)

/-- Bits 15..8. -/
def hiByte (h : Half) : Byte := h.extractLsb' 8 8

/-- Bits 7..0. -/
def loByte (h : Half) : Byte := h.extractLsb' 0 8

/-! ### The command word (R76) -/

/-- OP = CMD[7:0]. -/
def Command.op (c : Command) : Byte := c.cmd.extractLsb' 0 8

/-- DEV = CMD[15:8]. -/
def Command.dev (c : Command) : Byte := c.cmd.extractLsb' 8 8

/-- IDX = CMD[31:16]. -/
def Command.idx (c : Command) : Half := c.cmd.extractLsb' 16 16

/-- ARG = CMD[63:32]. -/
def Command.arg (c : Command) : Word := c.cmd.extractLsb' 32 32

/-- CMD from its four fields: ARG × 2^32 + IDX × 2^16 + DEV × 2^8 + OP (R76). -/
def commandWord (op dev : Byte) (idx : Half) (arg : Word) : BitVec 64 := arg ++ (idx ++ (dev ++ op))

/-- The command decoder: the opcode map R78, the operands of R80, zero-extended as R81 says; every other OP is illegal
(R79). -/
def decodeCommand (c : Command) : Instr :=
  if c.op = 0x01 then .step c.win c.now
  else if c.op = 0x02 then .read c.win c.now
  else if c.op = 0x03 then .crc16 c.win
  else if c.op = 0x10 then .extend c.dev c.arg
  else if c.op = 0x20 then .getf32 c.dev c.idx
  else if c.op = 0x21 then .geti16 c.dev c.idx
  else if c.op = 0x22 then .getu16 c.dev c.idx
  else if c.op = 0x23 then .geti32 c.dev c.idx
  else if c.op = 0x24 then .getu32 c.dev c.idx
  else if c.op = 0x28 then .dump c.dev
  else if c.op = 0x30 then .cfgw c.idx c.arg
  else if c.op = 0x31 then .cfgr c.idx
  else if c.op = 0xFF then .reset
  else .illegal c.op

/-! ### The wire frames -/

/-- Frame decoding in state Idle (R71, R100): the length first, then byte 1. Fields as R65 and R69 extract them. -/
def decodeIdle (w : Window) : IdleFrame :=
  match w with
  | [] => .empty
  | dev :: fc :: b2 :: b3 :: b4 :: rest5 =>
    if fc = 0x04 then
      match rest5 with
      | b5 :: b6 :: b7 :: rest => .request ⟨dev, be16 b2 b3, be16 b4 b5, le16 b6 b7⟩ rest
      | _ => .noise dev fc (b2 :: b3 :: b4 :: rest5)
    else if isExceptionCode fc then .exception ⟨dev, fc, b2, le16 b3 b4⟩ rest5
    else .noise dev fc (b2 :: b3 :: b4 :: rest5)
  | dev :: rest => .short dev rest

/-- Frame decoding in state AwaitingResponse, of the assembly buffer with the window appended (R72, R105). The two bytes after
the `byteCount` data bytes are the trailer (R67); without them the response is not complete. -/
def decodeAwait (a : Window) : AwaitFrame :=
  match a with
  | dev :: fc :: bc :: b3 :: b4 :: rest5 =>
    if isExceptionCode fc then .exception ⟨dev, fc, bc, le16 b3 b4⟩ rest5
    else
      match (b3 :: b4 :: rest5).drop bc.toNat with
      | lo :: hi :: rest => .response ⟨dev, fc, (b3 :: b4 :: rest5).take bc.toNat, le16 lo hi⟩ rest
      | _ => .holdIncomplete a
  | _ => .holdShort a

/-! ### The encoder -/

/-- Bytes 0 to 5 of a request frame, the bytes its CRC covers (R64). -/
def RequestFrame.head (q : RequestFrame) : Window :=
  [q.dev, 0x04, hiByte q.start, loByte q.start, hiByte q.count, loByte q.count]

/-- The 8 bytes of a request frame, CRC low byte first (R64, R70). -/
def RequestFrame.bytes (q : RequestFrame) : Window := q.head ++ [loByte q.crc, hiByte q.crc]

/-- The 5 bytes of an exception frame (R68). -/
def ExceptionFrame.bytes (e : ExceptionFrame) : Window := [e.dev, e.fc, e.code, loByte e.crc, hiByte e.crc]

/-- The bytes a response's CRC covers: device, function code, byte count, data (R66). -/
def ResponseFrame.head (r : ResponseFrame) : Window := r.dev :: r.fc :: BitVec.ofNat 8 r.data.length :: r.data

/-- The `byteCount + 5` bytes of a response frame (R66). -/
def ResponseFrame.bytes (r : ResponseFrame) : Window := r.head ++ [loByte r.crc, hiByte r.crc]

/-- What stands for an instruction outside the machine: a command on the port, a window seen in Idle (with the NOW of its
STEP), or an assembly buffer with a window appended (R63, R71, R72). -/
inductive Code where
  | command (c : Command)
  | idleWindow (w : Window) (now : Nat)
  | awaitBuffer (a : Window)
deriving DecidableEq, Repr

/-- The decoder over all encodings. -/
def decode : Code → Instr
  | .command c => decodeCommand c
  | .idleWindow w now => (decodeIdle w).toInstr now
  | .awaitBuffer a => (decodeAwait a).toInstr

/-- A command with the ports its operands do not use left empty. -/
def encodeWord (op dev : Byte) (idx : Half) (arg : Word) : Code := .command ⟨commandWord op dev idx arg, [], 0⟩

/-- The encoder: fields a command does not use are 0 (R80 says they are ignored). -/
def encode : Instr → Code
  | .step win now => .command ⟨commandWord 0x01 0 0 0, win, now⟩
  | .read win now => .command ⟨commandWord 0x02 0 0 0, win, now⟩
  | .crc16 win => .command ⟨commandWord 0x03 0 0 0, win, 0⟩
  | .extend dev size => encodeWord 0x10 dev 0 size
  | .getf32 dev idx => encodeWord 0x20 dev idx 0
  | .geti16 dev idx => encodeWord 0x21 dev idx 0
  | .getu16 dev idx => encodeWord 0x22 dev idx 0
  | .geti32 dev idx => encodeWord 0x23 dev idx 0
  | .getu32 dev idx => encodeWord 0x24 dev idx 0
  | .dump dev => encodeWord 0x28 dev 0 0
  | .cfgw idx value => encodeWord 0x30 0 idx value
  | .cfgr idx => encodeWord 0x31 0 idx 0
  | .reset => encodeWord 0xFF 0 0 0
  | .illegal op => encodeWord op 0 0 0
  | .wEmpty => .idleWindow [] 0
  | .wShort dev rest => .idleWindow (dev :: rest) 0
  | .wRequest q rest now => .idleWindow (q.bytes ++ rest) now
  | .wExceptionIdle e rest => .idleWindow (e.bytes ++ rest) 0
  | .wNoise dev fc rest => .idleWindow (dev :: fc :: rest) 0
  | .aHoldShort buf => .awaitBuffer buf
  | .aException e rest => .awaitBuffer (e.bytes ++ rest)
  | .aHoldIncomplete buf => .awaitBuffer buf
  | .aResponse r rest => .awaitBuffer (r.bytes ++ rest)

/-- The wire bytes of an encoding; a command word is not wire bytes. -/
def Code.wire? : Code → Option Window
  | .command _ => none
  | .idleWindow w _ => some w
  | .awaitBuffer a => some a

/-! ### The host's probe -/

/-- The command whose word has the low `nbits` bits of `w` and zeros above them, its ports empty (log entries 3, 11). -/
def tableCommand (nbits w : Nat) : Command := ⟨BitVec.ofNat 64 (w % 2 ^ nbits), [], 0⟩

/-- What the command decoder reads from a word of the opcode table. Every 64-bit word is a command (R78, R79), so it always
answers. The rows W_ and A_ give bits of a wire byte, not of a command word: as a command word 0x04 and 0x80 are unassigned
opcodes (R79), and that is what this answers (log entry 11). -/
def decodeTableWord (nbits w : Nat) : Option Instr := some (decodeCommand (tableCommand nbits w))

end Sys2Proof
end

