-- ==== Sys2Proof/Machine/State.lean ====
section
/-! DEFINITION. The state of MBCOR (10_state.md R22), its reset value (R40), and the reasons a step can stop. State is plain
data. Three fields are the model's own: `order`, the parameter INT_BYTE_ORDER (00_scope.md R8; log entry 7), `out`, the result
ports of the last command (30_encoding.md R77; log entry 1), and `cmds`, the commands the host has issued and MBCOR has not yet run
(R76; log entry 2). -/

namespace Sys2Proof.Machine

/-- Why the machine would stop. The spec says it never does (60_exceptions.md R152; 20_memory.md R45): no step raises either. -/
inductive Fault where
  /-- Raised by `storeRead` and `storeWrite` for an offset outside the domain of 20_memory.md R45. Safe: the rules test the
  domain first, so no command reaches it (log entry 13). -/
  | storeOutOfDomain
  /-- Raised by `drain` when a READ would run more STEPs than 41_correlator.md R116 bounds. Safe: R116 says it never does
  (log entry 14). -/
  | drainUnfinished
deriving DecidableEq, Repr

/-- An instruction without a meaning. No instruction of this model is refused. -/
inductive Refusal where
  /-- Raised by a refused arm of `exec`; there is none. Safe: the machine stops. -/
  | notModelled (mnemonic : String)
deriving DecidableEq, Repr

/-- The pending request (10_state.md R22, R24). The fields other than `valid` mean nothing while `valid` is false. -/
structure Pending where
  valid : Bool
  dev   : Byte
  start : Half
  count : Half
  /-- The raw request frame, 8 bytes. -/
  frame : Window
  /-- Arrival time, in ticks. -/
  time  : Nat
deriving DecidableEq, Repr

/-- The bytes of one device space: (offset, byte) cells in canonical form (`Memory.wf`). An unlisted offset below the
buffer's length reads 0 (10_state.md R41). -/
abbrev Memory := List Host.Cell

/-- An allocated device buffer (10_state.md R29). -/
structure Buffer where
  len   : Nat
  cells : Memory
deriving DecidableEq, Repr

/-- The register store: the allocated devices, by device id. A device that is not listed has `alloc = 0` and `len = 0`
(10_state.md R29). -/
abbrev Store := List (Nat × Buffer)

/-- The configuration registers that are state (10_state.md R32, R33). -/
structure Cfg where
  reqTimeout : Word
  debug      : Bool
deriving DecidableEq, Repr

/-- STATUS (30_encoding.md R77): OK is 0, ILLEGAL is 1. -/
inductive Status where
  | ok
  | illegal
deriving DecidableEq, Repr

/-- An event record (60_exceptions.md R153). -/
structure Event where
  code : Byte
  dev  : Byte
  a    : Word
  b    : Word
deriving DecidableEq, Repr

/-- The result ports (30_encoding.md R77). -/
structure Ports where
  status  : Status
  rem     : Window
  evt     : List Event
  res     : Word
  present : Bool
  dout    : Window
deriving DecidableEq, Repr

/-- Every port at its default (30_encoding.md R77). -/
def Ports.default : Ports := { status := .ok, rem := [], evt := [], res := 0, present := false, dout := [] }

structure State where
  pend  : Pending
  /-- The response assembly buffer (10_state.md R27). -/
  asm   : Window
  store : Store
  cfg   : Cfg
  /-- The model's own: the parameter INT_BYTE_ORDER of the block (00_scope.md R8), fixed for its lifetime: no instruction writes
  it (20_memory.md R50). -/
  order : ByteOrder
  /-- The model's own: the result ports of the last command. -/
  out   : Ports
  /-- The model's own: the commands issued and not yet run, oldest first. -/
  cmds  : List Command
deriving DecidableEq, Repr

/-- The pending record at reset. `valid = 0` is R40's; the other values are the model's DESIGN CHOICE (log entry 4): R40 leaves
them unspecified. -/
def Pending.reset : Pending :=
  { valid := false, dev := 0, start := 0, count := 0, frame := [0, 0, 0, 0, 0, 0, 0, 0], time := 0 }

/-- The configuration registers at reset (R32, R33, R40; 44_control.md R150): REQUEST_TIMEOUT_RESET saturated to 2^32 - 1, and
DEBUG 0. -/
def Cfg.reset : Cfg :=
  { reqTimeout := BitVec.ofNat 32 (min Config.requestTimeoutReset (2 ^ 32 - 1)), debug := false }

/-- The machine right after power-on (10_state.md R40; 70_reset_and_hazards.md R173), with MBCOR's INT_BYTE_ORDER. -/
def State.reset : State :=
  { pend := Pending.reset, asm := [], store := [], cfg := Cfg.reset, order := Config.intByteOrder, out := Ports.default, cmds := [] }

end Sys2Proof.Machine
end

