-- ==== Sys2Proof/Machine/Ops.lean ====
section
/-! DEFINITION. The named operations the meanings share: the result ports and the event list, the store primitives and growth,
the configuration registers, and taking the next command. MBCOR has no trap entry or return (60_exceptions.md R165): what other
machines do by an exception it does by `emit`. -/

namespace Sys2Proof.Machine

/-! ### Lists of key and value in rising key order -/

/-- The value at a key. -/
def lookup {α : Type} : List (Nat × α) → Nat → Option α
  | [], _ => none
  | (k, v) :: l, a => if k = a then some v else lookup l a

/-- Put a value at a key, keeping rising key order. -/
def insert {α : Type} : List (Nat × α) → Nat → α → List (Nat × α)
  | [], a, x => [(a, x)]
  | (k, v) :: l, a, x =>
    if a < k then (a, x) :: (k, v) :: l
    else if k = a then (a, x) :: l
    else (k, v) :: insert l a x

/-- Drop a key. -/
def erase {α : Type} (l : List (Nat × α)) (a : Nat) : List (Nat × α) := l.filter (fun c => decide (c.1 ≠ a))

/-- The keys rise strictly. -/
def rising {α : Type} : List (Nat × α) → Bool
  | [] => true
  | [_] => true
  | (k, _) :: (k', v') :: l => decide (k < k') && rising ((k', v') :: l)

/-! ### Memory: the bytes of one device space -/

/-- What an offset that no cell lists reads as: growth is zero-filled (10_state.md R41; 42_register_store.md R124). -/
def unlistedByte : Byte := 0

/-- The canonical form: offsets strictly rising, no cell equal to what an unlisted offset reads as. -/
def Memory.wf (m : Memory) : Bool := rising m && m.all (fun c => decide (c.2 ≠ unlistedByte))

/-- The byte at an offset. -/
def Memory.read (m : Memory) (a : Nat) : Byte := (lookup m a).getD unlistedByte

/-- Write a byte, keeping the canonical form. -/
def Memory.write (m : Memory) (a : Nat) (x : Byte) : Memory :=
  if x = unlistedByte then erase m a else insert m a x

/-- The cells below a length: the contents a grown buffer takes over from one of that length (42_register_store.md R124). -/
def Memory.below (m : Memory) (n : Nat) : Memory := m.filter (fun c => decide (c.1 < n))

/-- The legal lengths of an allocated buffer (10_state.md R29). -/
def legalLen (n : Nat) : Bool :=
  decide (n % Config.storeIncrement = 0 ∧ Config.storeIncrement ≤ n ∧ n ≤ Config.storeMaxLen)

/-- A legal length, canonical cells, none at or above the length. -/
def Buffer.wf (b : Buffer) : Bool := legalLen b.len && Memory.wf b.cells && b.cells.all (fun c => decide (c.1 < b.len))

/-- The store's canonical form: device ids strictly rising and below 256, every buffer well formed. -/
def Store.wf (st : Store) : Bool := rising st && st.all (fun c => decide (c.1 < 256) && c.2.wf)

/-! ### The register store (10_state.md R29) -/

/-- The buffer of a device, when it is allocated. -/
def State.buffer? (s : State) (d : Byte) : Option Buffer := lookup s.store d.toNat

/-- `st.store[d].alloc`. -/
def State.alloc (s : State) (d : Byte) : Bool := (s.buffer? d).isSome

/-- `st.store[d].len`: 0 while the device is unknown. -/
def State.len (s : State) (d : Byte) : Nat := match s.buffer? d with
  | some b => b.len
  | none => 0

/-- Replace the buffer of a device. -/
def State.setBuffer (s : State) (d : Byte) (b : Buffer) : State := { s with store := insert s.store d.toNat b }

/-- StoreRead(d, a), defined only for an allocated device and an offset below its length (00_scope.md R14; 20_memory.md
R45). -/
def storeRead (d : Byte) (a : Nat) (s : State) : Except Fault Byte := match s.buffer? d with
  | some b => if a < b.len then .ok (b.cells.read a) else .error .storeOutOfDomain
  | none => .error .storeOutOfDomain

/-- StoreWrite(d, a, x), with the domain of StoreRead (00_scope.md R14; 20_memory.md R45). -/
def storeWrite (d : Byte) (a : Nat) (x : Byte) (s : State) : Except Fault State := match s.buffer? d with
  | some b =>
    if a < b.len then .ok (s.setBuffer d { b with cells := b.cells.write a x }) else .error .storeOutOfDomain
  | none => .error .storeOutOfDomain

/-- What StoreRead answers, for statements about every address: none outside its domain. -/
def State.byte? (s : State) (d : Byte) (a : Nat) : Option Byte := match storeRead d a s with
  | .ok x => some x
  | .error _ => none

/-- The bytes of a device, offset 0 first (10_state.md R29): none for an unknown device. -/
def State.bufferBytes (s : State) (d : Byte) : Window := match s.buffer? d with
  | some b => (List.range' 0 b.len).map b.cells.read
  | none => []

/-! ### Events and result ports (60_exceptions.md R153; 30_encoding.md R77) -/

/-- Every port at its default, as a command begins. -/
def State.clearOut (s : State) : State := { s with out := Ports.default }

/-- `emit`: append an event to EVT (R153, R154). -/
def State.emit (s : State) (e : Event) : State := { s with out := { s.out with evt := s.out.evt ++ [e] } }

/-- `emit` when a condition holds. -/
def State.emitIf (s : State) (c : Bool) (e : Event) : State := if c then s.emit e else s

/-- Place REM. -/
def State.setRem (s : State) (w : Window) : State := { s with out := { s.out with rem := w } }

/-- A natural as an event field or a RES value. The spec's values fit 32 bits but for the length of a window of 2^32 bytes or
more, which is a free value (log entry 8). -/
def word (n : Nat) : Word := BitVec.ofNat 32 n

/-- The event field for a window's length (R153: `a` is 32 bits; 00_scope.md R8: windows are unbounded). -/
def windowLength (w : Window) : Word := if w.length < 2 ^ 32 then word w.length else Config.longWindowLength w.length

/-- SHORT_FRAME (code 1). -/
def Event.shortFrame (dev : Byte) (length : Word) : Event := ⟨1, dev, length, 0⟩

/-- NOISE (code 2). -/
def Event.noise (dev : Byte) (length : Word) (fc : Byte) : Event := ⟨2, dev, length, fc.setWidth 32⟩

/-- BAD_CRC_REQUEST (code 3). -/
def Event.badCrcRequest (dev : Byte) (computed received : Half) : Event :=
  ⟨3, dev, computed.setWidth 32, received.setWidth 32⟩

/-- BAD_CRC_RESPONSE (code 4). -/
def Event.badCrcResponse (dev : Byte) (computed received : Half) : Event :=
  ⟨4, dev, computed.setWidth 32, received.setWidth 32⟩

/-- EXCEPTION_FRAME (code 5): `a` is `fc << 8 or exceptionCode`, `b` whether a request was abandoned. -/
def Event.exceptionFrame (dev fc code : Byte) (abandoned : Bool) : Event :=
  ⟨5, dev, (fc ++ code).setWidth 32, if abandoned then 1 else 0⟩

/-- LENGTH_MISMATCH (code 6). -/
def Event.lengthMismatch (dev : Byte) (declared expected : Nat) : Event := ⟨6, dev, word declared, word expected⟩

/-- REQUEST_TIMEOUT (code 7). -/
def Event.requestTimeout (dev : Byte) (start count : Half) : Event := ⟨7, dev, start.setWidth 32, count.setWidth 32⟩

/-- STORE_CLIPPED (code 8). -/
def Event.storeClipped (dev : Byte) (firstDropped dropped : Nat) : Event := ⟨8, dev, word firstDropped, word dropped⟩

/-- REQUEST_CAPTURED (code 9). -/
def Event.requestCaptured (dev : Byte) (start count : Half) : Event := ⟨9, dev, start.setWidth 32, count.setWidth 32⟩

/-- RESPONSE_STORED (code 10). -/
def Event.responseStored (dev : Byte) (offset byteCount : Nat) : Event := ⟨10, dev, word offset, word byteCount⟩

/-- ILLEGAL_COMMAND (code 11). -/
def Event.illegalCommand (op : Byte) : Event := ⟨11, 0, op.setWidth 32, 0⟩

/-! ### Growth (42_register_store.md R124) -/

/-- The growth loop: add STORE_INCREMENT while the required size exceeds the candidate and the candidate is below
STORE_GROW_LIMIT, at most as many times as the first argument says. -/
def growLoop : Nat → Nat → Nat → Nat
  | 0, _, cand => cand
  | n + 1, req, cand =>
    if req > cand ∧ cand < Config.storeGrowLimit then growLoop n req (cand + Config.storeIncrement) else cand

/-- The growth loop takes at most 16 passes (R131; log entry 15). -/
def growPasses : Nat := 16

/-- The length Extend gives a buffer; `old` is its length now, none for an unknown device, which targets at least 4096. -/
def extendedLen (old : Option Nat) (req : Nat) : Nat := match old with
  | some n => growLoop growPasses req n
  | none => max (growLoop growPasses req 0) Config.storeIncrement

/-- Extend(d, req): allocate or grow, zero-filled, the old contents kept as the prefix. -/
def extend (d : Byte) (req : Nat) (s : State) : State := match s.buffer? d with
  | some b =>
    if extendedLen (some b.len) req > b.len then
      s.setBuffer d { len := extendedLen (some b.len) req, cells := b.cells.below b.len }
    else s
  | none => s.setBuffer d { len := extendedLen none req, cells := [] }

/-! ### The response write (R126) -/

/-- The loop of WriteClipped: write each byte whose offset is below L. -/
def writeBelow (d : Byte) (L : Nat) : Nat → Window → State → Except Fault State
  | _, [], s => .ok s
  | a, x :: xs, s =>
    if a < L then
      match storeWrite d a x s with
      | .ok s' => writeBelow d L (a + 1) xs s'
      | .error f => .error f
    else writeBelow d L (a + 1) xs s

/-- How many of `n` bytes from `base` lie at or above L. -/
def droppedCount (base n L : Nat) : Nat := n - min n (L - base)

/-- WriteClipped(d, base, x), and STORE_CLIPPED when a byte was dropped. -/
def writeClipped (d : Byte) (base : Nat) (x : Window) (s : State) : Except Fault State :=
  match writeBelow d (s.len d) base x s with
  | .ok s' =>
    .ok (s'.emitIf (decide (droppedCount base x.length (s.len d) > 0))
      (.storeClipped d (max base (s.len d)) (droppedCount base x.length (s.len d))))
  | .error f => .error f

/-! ### Configuration registers (10_state.md R32 to R35) -/

/-- Register ORDER: bit 0 reports INT_BYTE_ORDER (R34). -/
def orderRegister (o : ByteOrder) : Word := match o with
  | .le => 0
  | .be => 1

/-- Read a configuration register; none for a number that names no register (44_control.md R146, R147). -/
def State.cfgRead? (s : State) (idx : Half) : Option Word :=
  if idx = 0x0000 then some s.cfg.reqTimeout
  else if idx = 0x0001 then some (if s.cfg.debug then 1 else 0)
  else if idx = 0x0002 then some (orderRegister s.order)
  else none

/-- Write a configuration register; none where there is none to write (44_control.md R144, R145). DEBUG keeps bit 0 only
(10_state.md R33). -/
def State.cfgWrite? (s : State) (idx : Half) (v : Word) : Option State :=
  if idx = 0x0000 then some { s with cfg := { s.cfg with reqTimeout := v } }
  else if idx = 0x0001 then some { s with cfg := { s.cfg with debug := v.getLsbD 0 } }
  else none

/-! ### The next command -/

/-- Take the oldest command the host has issued, if there is one. -/
def State.nextCommand? (s : State) : Option (Command × State) := match s.cmds with
  | c :: rest => some (c, { s with cmds := rest })
  | [] => none

/-- The outcome of a meaning. -/
def outcome : Except Fault State → Host.Outcome State Fault Refusal
  | .ok s => .next s
  | .error f => .fault f

end Sys2Proof.Machine
end

