-- ==== Sys2Proof/Machine/Operands.lean ====
section
/-! DEFINITION. The operand forms of the accessors: which bytes a register index names (43_accessors.md R132 to R134) and how
they are combined (20_memory.md R49). The wire and command operand forms are in Decode.lean. -/

namespace Sys2Proof.Machine

/-- The byte offset of a register index: `index * 2` (20_memory.md R44). -/
def registerOffset (idx : Half) : Nat := 2 * idx.toNat

/-- Whether Fetch finds a register of `width` bytes: the device is allocated and the read lies inside its buffer (R133,
R134). -/
def State.inRange (s : State) (d : Byte) (idx : Half) (width : Nat) : Bool :=
  s.alloc d && decide (registerOffset idx + width ≤ s.len d)

/-- Fetch with width 2 (R132): none is ABSENT. -/
def fetch2 (d : Byte) (idx : Half) (s : State) : Except Fault (Option (Byte × Byte)) :=
  if s.inRange d idx 2 then do
    let b0 ← storeRead d (registerOffset idx) s
    let b1 ← storeRead d (registerOffset idx + 1) s
    pure (some (b0, b1))
  else pure none

/-- Fetch with width 4 (R132): none is ABSENT. -/
def fetch4 (d : Byte) (idx : Half) (s : State) : Except Fault (Option (Byte × Byte × Byte × Byte)) :=
  if s.inRange d idx 4 then do
    let b0 ← storeRead d (registerOffset idx) s
    let b1 ← storeRead d (registerOffset idx + 1) s
    let b2 ← storeRead d (registerOffset idx + 2) s
    let b3 ← storeRead d (registerOffset idx + 3) s
    pure (some (b0, b1, b2, b3))
  else pure none

/-- Two bytes as an integer, by INT_BYTE_ORDER (R49, R135). -/
def int16 (o : ByteOrder) (b0 b1 : Byte) : Half := match o with
  | .le => le16 b0 b1
  | .be => be16 b0 b1

/-- Four bytes as an integer, by INT_BYTE_ORDER (R49, R137). -/
def int32 (o : ByteOrder) (b0 b1 b2 b3 : Byte) : Word := match o with
  | .le => le32 b0 b1 b2 b3
  | .be => be32 b0 b1 b2 b3

/-- RES of GETU16: zero-extended (R135). -/
def resU16 (o : ByteOrder) (b0 b1 : Byte) : Word := (int16 o b0 b1).setWidth 32

/-- RES of GETI16: the two's-complement value as a 32-bit pattern (R136). -/
def resI16 (o : ByteOrder) (b0 b1 : Byte) : Word := (int16 o b0 b1).signExtend 32

/-- RES of GETU32 (R137). -/
def resU32 (o : ByteOrder) (b0 b1 b2 b3 : Byte) : Word := int32 o b0 b1 b2 b3

/-- RES of GETI32: the same pattern as GETU32 (R138). -/
def resI32 (o : ByteOrder) (b0 b1 b2 b3 : Byte) : Word := int32 o b0 b1 b2 b3

/-- RES of GETF32: big-endian whatever INT_BYTE_ORDER is (R139). -/
def resF32 (b0 b1 b2 b3 : Byte) : Word := be32 b0 b1 b2 b3

/-- The ports of a present read. -/
def presentPorts (v : Word) : Ports := { Ports.default with res := v, present := true }

/-- The ports of an accessor: the combined value and PRESENT = 1, or the absent result RES = 0, PRESENT = 0 (R141). -/
def readPorts : Option Word → Ports
  | some v => presentPorts v
  | none => Ports.default

/-- An accessor of width 2. -/
def access2 (combine : Byte → Byte → Word) (d : Byte) (idx : Half) (s : State) : Except Fault State := do
  let bytes ← fetch2 d idx s
  pure { s with out := readPorts (bytes.map fun (b0, b1) => combine b0 b1) }

/-- An accessor of width 4. -/
def access4 (combine : Byte → Byte → Byte → Byte → Word) (d : Byte) (idx : Half) (s : State) : Except Fault State := do
  let bytes ← fetch4 d idx s
  pure { s with out := readPorts (bytes.map fun (b0, b1, b2, b3) => combine b0 b1 b2 b3) }

end Sys2Proof.Machine
end

