-- ==== Sys2Proof/Machine/Accessors.lean ====
section
/-! DEFINITION. The typed accessors and DUMP (43_accessors.md). -/

namespace Sys2Proof.Machine

/-- GETF32 (R139). -/
def execGetF32 (dev : Byte) (idx : Half) (s : State) : Host.Outcome State Fault Refusal :=
  outcome (access4 resF32 dev idx s)

/-- GETI16 (R136). -/
def execGetI16 (dev : Byte) (idx : Half) (s : State) : Host.Outcome State Fault Refusal :=
  outcome (access2 (resI16 s.order) dev idx s)

/-- GETU16 (R135). -/
def execGetU16 (dev : Byte) (idx : Half) (s : State) : Host.Outcome State Fault Refusal :=
  outcome (access2 (resU16 s.order) dev idx s)

/-- GETI32 (R138). -/
def execGetI32 (dev : Byte) (idx : Half) (s : State) : Host.Outcome State Fault Refusal :=
  outcome (access4 (resI32 s.order) dev idx s)

/-- GETU32 (R137). -/
def execGetU32 (dev : Byte) (idx : Half) (s : State) : Host.Outcome State Fault Refusal :=
  outcome (access4 (resU32 s.order) dev idx s)

/-- DUMP (R142). -/
def execDump (dev : Byte) (s : State) : Host.Outcome State Fault Refusal :=
  .next { s with out := { Ports.default with dout := s.bufferBytes dev } }

end Sys2Proof.Machine
end

