-- ==== Sys2Proof/Machine/Control.lean ====
section
/-! DEFINITION. The configuration commands, RESET and unassigned opcodes (44_control.md). -/

namespace Sys2Proof.Machine

/-- The ports of a command that is illegal: STATUS = ILLEGAL, the others at their defaults. -/
def illegalPorts : Ports := { Ports.default with status := .illegal }

/-- CFGW (R144, R145). -/
def execCfgw (idx : Half) (value : Word) (s : State) : Host.Outcome State Fault Refusal :=
  match s.clearOut.cfgWrite? idx value with
  | some s' => .next s'
  | none => .next { s with out := illegalPorts }

/-- CFGR (R146, R147). -/
def execCfgr (idx : Half) (s : State) : Host.Outcome State Fault Refusal :=
  match s.cfgRead? idx with
  | some v => .next { s with out := { Ports.default with res := v } }
  | none => .next { s with out := illegalPorts }

/-- RESET (R150): the reset state of 10_state.md R40. INT_BYTE_ORDER does not change, and the host's command stream is kept (log
entry 17). -/
def execReset (s : State) : Host.Outcome State Fault Refusal := .next { State.reset with order := s.order, cmds := s.cmds }

/-- A command with an unassigned OP (R148): no state changes, STATUS = ILLEGAL, one event. -/
def execIllegal (op : Byte) (s : State) : Host.Outcome State Fault Refusal :=
  .next ({ s with out := illegalPorts }.emit (.illegalCommand op))

end Sys2Proof.Machine
end

