-- ==== Sys2Proof/Machine/Crc.lean ====
section
/-! DEFINITION. The CRC unit (40_crc.md) and the CRC16 command. -/

namespace Sys2Proof.Machine

/-- One of the 8 iterations (R90): shift right, and XOR with CRC_POLY when the low bit was set. -/
def crcBit (c : Half) : Half := if c.getLsbD 0 then (c >>> 1) ^^^ 0xA001 else c >>> 1

/-- One byte: XOR into the low byte, then 8 iterations (R90). -/
def crcByte (c : Half) (b : Byte) : Half := Nat.repeat crcBit 8 (c ^^^ b.setWidth 16)

/-- CRC16(w), from CRC_INIT (R90). -/
def crc16 (w : Window) : Half := w.foldl crcByte 0xFFFF

/-- CRC16 (R92). -/
def execCrc16 (win : Window) (s : State) : Host.Outcome State Fault Refusal :=
  .next { s with out := { Ports.default with res := (crc16 win).setWidth 32 } }

end Sys2Proof.Machine
end

