-- ==== Sys2Proof/Machine/Flags.lean ====
section
/-! DEFINITION. The one status flag, `pend.valid` (10_state.md R23, R37): what sets it, what clears it, and the request timer
that clears it (60_exceptions.md R167). -/

namespace Sys2Proof.Machine

/-- The timeout condition: a request is pending and `NOW - st.pend.time > st.cfg.reqTimeout`, with truncated subtraction and a
strict comparison (41_correlator.md R99; 00_scope.md R10). -/
def State.timedOut (s : State) (now : Nat) : Bool :=
  s.pend.valid && decide (now - s.pend.time > s.cfg.reqTimeout.toNat)

/-- Clear `pend.valid` and empty the assembly buffer (R99, R107, R113). The other pending fields keep their values, which no
rule reads (10_state.md R24; log entry 5). -/
def State.toIdle (s : State) : State := { s with pend := { s.pend with valid := false }, asm := [] }

/-- Set `pend.valid` with the captured request, all fields together, and empty the assembly buffer (R101; 10_state.md R24). -/
def State.toAwaiting (s : State) (q : RequestFrame) (now : Nat) : State :=
  { s with
    pend := { valid := true, dev := q.dev, start := q.start, count := q.count, frame := q.bytes, time := now }
    asm := [] }

/-- Timeout() (R99). -/
def State.timeout (s : State) : State :=
  (s.emit (.requestTimeout s.pend.dev s.pend.start s.pend.count)).toIdle

end Sys2Proof.Machine
end

