-- ==== Sys2Proof/Machine/Correlator.lean ====
section
/-! DEFINITION. The frame correlator (41_correlator.md): the nine wire-frame classes, STEP and READ. A class's operation appends
to EVT and places REM, since it runs inside a STEP (R97). -/

namespace Sys2Proof.Machine

/-! ### Idle (R100 to R104) -/

/-- W_EMPTY: nothing happens, REM is empty (R100). -/
def idleEmpty (s : State) : State := s.setRem []

/-- Discard(w, SHORT) (R104), of the window `dev :: rest`. -/
def discardShort (dev : Byte) (rest : Window) (s : State) : State :=
  (s.emit (.shortFrame dev (windowLength (dev :: rest)))).setRem []

/-- Discard(w, NOISE) (R104), of the window `dev :: fc :: rest`. -/
def discardNoise (dev fc : Byte) (rest : Window) (s : State) : State :=
  (s.emit (.noise dev (windowLength (dev :: fc :: rest)) fc)).setRem []

/-- CheckRequestCrc (R102): over the first 6 bytes. -/
def checkRequestCrc (q : RequestFrame) (s : State) : State :=
  s.emitIf (decide (crc16 q.head ≠ q.crc)) (.badCrcRequest q.dev (crc16 q.head) q.crc)

/-- Capture (R101). -/
def capture (q : RequestFrame) (rest : Window) (now : Nat) (s : State) : State :=
  ((((checkRequestCrc q s).toAwaiting q now).emit (.requestCaptured q.dev q.start q.count))).setRem rest

/-- IdleException (R103). -/
def idleException (e : ExceptionFrame) (rest : Window) (s : State) : State :=
  (s.emit (.exceptionFrame e.dev e.fc e.code false)).setRem rest

/-- IdleStep (R100): exactly one of the classes of 30_encoding.md R71. -/
def idleStep (w : Window) (now : Nat) (s : State) : State := match decodeIdle w with
  | .empty => idleEmpty s
  | .short dev rest => discardShort dev rest s
  | .request q rest => capture q rest now s
  | .exception e rest => idleException e rest s
  | .noise dev fc rest => discardNoise dev fc rest s

/-! ### AwaitingResponse (R105 to R113) -/

/-- Hold (R106, R108). -/
def hold (a : Window) (s : State) : State := { s with asm := a }.setRem []

/-- AwaitException (R107). -/
def awaitException (e : ExceptionFrame) (rest : Window) (s : State) : State :=
  ((s.emit (.exceptionFrame e.dev e.fc e.code true)).toIdle).setRem rest

/-- CheckResponseCrc (R110): over all bytes but the trailing two. -/
def checkResponseCrc (r : ResponseFrame) (s : State) : State :=
  s.emitIf (decide (crc16 r.head ≠ r.crc)) (.badCrcResponse r.dev (crc16 r.head) r.crc)

/-- CheckLength (R111). -/
def checkLength (r : ResponseFrame) (s : State) : State :=
  s.emitIf (decide (r.data.length ≠ 2 * s.pend.count.toNat)) (.lengthMismatch r.dev r.data.length (2 * s.pend.count.toNat))

/-- The first byte offset a response is written to: twice the pending request's start register (R112). -/
def responseBase (s : State) : Nat := 2 * s.pend.start.toNat

/-- WriteResponse (R112): grow the response's own device to cover `base + bc + 1` bytes, then write. -/
def writeResponse (r : ResponseFrame) (s : State) : Except Fault State :=
  writeClipped r.dev (responseBase s) r.data (extend r.dev (responseBase s + r.data.length + 1) s)

/-- Finish (R113). -/
def finishResponse (r : ResponseFrame) (s : State) : State :=
  (s.emit (.responseStored r.dev (responseBase s) r.data.length)).toIdle

/-- Complete (R109). -/
def complete (r : ResponseFrame) (rest : Window) (s : State) : Except Fault State :=
  match writeResponse r (checkLength r (checkResponseCrc r s)) with
  | .ok s' => .ok ((finishResponse r s').setRem rest)
  | .error f => .error f

/-- AwaitStep (R105): the assembly buffer with the window appended, decoded by 30_encoding.md R72. -/
def awaitStep (w : Window) (s : State) : Except Fault State := match decodeAwait (s.asm ++ w) with
  | .holdShort a => .ok (hold a s)
  | .exception e rest => .ok (awaitException e rest s)
  | .holdIncomplete a => .ok (hold a s)
  | .response r rest => complete r rest s

/-! ### STEP and READ -/

/-- One correlator call (R97): the timeout is judged first, and a timed-out STEP decodes its window in Idle. -/
def correlate (w : Window) (now : Nat) (s : State) : Except Fault State :=
  if s.timedOut now then .ok (idleStep w now s.clearOut.timeout)
  else if s.pend.valid then awaitStep w s.clearOut
  else .ok (idleStep w now s.clearOut)

/-- The loop of READ (R115), at most as many STEPs as the first argument says: each STEP's events are appended to `all`, and
the loop ends at the first empty REM. -/
def drain : Nat → Window → Nat → List Event → State → Except Fault State
  | 0, _, _, _, _ => .error .drainUnfinished
  | n + 1, w, now, all, s =>
    match correlate w now s with
    | .error f => .error f
    | .ok s' =>
      if s'.out.rem = [] then .ok { s' with out := { Ports.default with evt := all ++ s'.out.evt } }
      else drain n s'.out.rem now (all ++ s'.out.evt) s'

/-- The number of STEPs a READ runs at most (R116): floor((h + n) / 5) + 1. -/
def drainBound (s : State) (w : Window) : Nat := (s.asm.length + w.length) / 5 + 1

/-- READ's effect (R115): an empty window runs no STEP. -/
def readWindow (w : Window) (now : Nat) (s : State) : Except Fault State :=
  if w = [] then .ok s.clearOut else drain (drainBound s w) w now [] s

/-- STEP (R97). -/
def execStep (win : Window) (now : Nat) (s : State) : Host.Outcome State Fault Refusal := outcome (correlate win now s)

/-- READ (R115). -/
def execRead (win : Window) (now : Nat) (s : State) : Host.Outcome State Fault Refusal := outcome (readWindow win now s)

/-! ### The wire rows of the opcode table -/

/-- W_EMPTY (R100). -/
def execWEmpty (s : State) : Host.Outcome State Fault Refusal := .next (idleEmpty s)

/-- W_SHORT (R104). -/
def execWShort (dev : Byte) (rest : Window) (s : State) : Host.Outcome State Fault Refusal :=
  .next (discardShort dev rest s)

/-- W_REQUEST (R101). -/
def execWRequest (frame : RequestFrame) (rest : Window) (now : Nat) (s : State) : Host.Outcome State Fault Refusal :=
  .next (capture frame rest now s)

/-- W_EXCEPTION_IDLE (R103). -/
def execWExceptionIdle (frame : ExceptionFrame) (rest : Window) (s : State) : Host.Outcome State Fault Refusal :=
  .next (idleException frame rest s)

/-- W_NOISE (R104). -/
def execWNoise (dev fc : Byte) (rest : Window) (s : State) : Host.Outcome State Fault Refusal :=
  .next (discardNoise dev fc rest s)

/-- A_HOLD_SHORT (R106). -/
def execAHoldShort (buf : Window) (s : State) : Host.Outcome State Fault Refusal := .next (hold buf s)

/-- A_EXCEPTION (R107). -/
def execAException (frame : ExceptionFrame) (rest : Window) (s : State) : Host.Outcome State Fault Refusal :=
  .next (awaitException frame rest s)

/-- A_HOLD_INCOMPLETE (R108). -/
def execAHoldIncomplete (buf : Window) (s : State) : Host.Outcome State Fault Refusal := .next (hold buf s)

/-- A_RESPONSE (R109). -/
def execAResponse (frame : ResponseFrame) (rest : Window) (s : State) : Host.Outcome State Fault Refusal :=
  outcome (complete frame rest s)

end Sys2Proof.Machine
end

