-- ==== Sys2Proof/Machine/RegisterStore.lean ====
section
/-! DEFINITION. The EXTEND command (42_register_store.md R129). -/

namespace Sys2Proof.Machine

/-- EXTEND: Extend, then RES is the new length. -/
def execExtend (dev : Byte) (size : Word) (s : State) : Host.Outcome State Fault Refusal :=
  .next { extend dev size.toNat s with out := { Ports.default with res := word ((extend dev size.toNat s).len dev) } }

end Sys2Proof.Machine
end

