-- ==== Sys2Proof/Machine/Dispatch.lean ====
section
/-! DEFINITION. The meaning of every instruction: one arm per constructor of Instr. -/

namespace Sys2Proof.Machine

def exec (i : Instr) (s : State) : Host.Outcome State Fault Refusal :=
  match i with
  | .step win now => Sys2Proof.Machine.execStep win now s
  | .read win now => Sys2Proof.Machine.execRead win now s
  | .crc16 win => Sys2Proof.Machine.execCrc16 win s
  | .extend dev size => Sys2Proof.Machine.execExtend dev size s
  | .getf32 dev idx => Sys2Proof.Machine.execGetF32 dev idx s
  | .geti16 dev idx => Sys2Proof.Machine.execGetI16 dev idx s
  | .getu16 dev idx => Sys2Proof.Machine.execGetU16 dev idx s
  | .geti32 dev idx => Sys2Proof.Machine.execGetI32 dev idx s
  | .getu32 dev idx => Sys2Proof.Machine.execGetU32 dev idx s
  | .dump dev => Sys2Proof.Machine.execDump dev s
  | .cfgw idx value => Sys2Proof.Machine.execCfgw idx value s
  | .cfgr idx => Sys2Proof.Machine.execCfgr idx s
  | .reset => Sys2Proof.Machine.execReset s
  | .illegal op => Sys2Proof.Machine.execIllegal op s
  | .wEmpty => Sys2Proof.Machine.execWEmpty s
  | .wShort dev rest => Sys2Proof.Machine.execWShort dev rest s
  | .wRequest frame rest now => Sys2Proof.Machine.execWRequest frame rest now s
  | .wExceptionIdle frame rest => Sys2Proof.Machine.execWExceptionIdle frame rest s
  | .wNoise dev fc rest => Sys2Proof.Machine.execWNoise dev fc rest s
  | .aHoldShort buf => Sys2Proof.Machine.execAHoldShort buf s
  | .aException frame rest => Sys2Proof.Machine.execAException frame rest s
  | .aHoldIncomplete buf => Sys2Proof.Machine.execAHoldIncomplete buf s
  | .aResponse frame rest => Sys2Proof.Machine.execAResponse frame rest s

end Sys2Proof.Machine
end

