-- ==== Sys2Proof/Machine/Step.lean ====
section
/-! DEFINITION. One step: the oldest command the host has issued, decoded and executed (00_scope.md R5; 30_encoding.md R76). -/

namespace Sys2Proof.Machine

/-- Run the next command; with none issued, MBCOR waits and nothing changes (60_exceptions.md R171; 70_reset_and_hazards.md
R174; log entry 2). -/
def step (s : State) : Host.Outcome State Fault Refusal :=
  match s.nextCommand? with
  | some (c, s') => exec (decodeCommand c) s'
  | none => .next s

/-- The host's probe: the same command `decodeTableWord` decodes, issued as the next one to run (log entry 3). -/
def State.withFetchWord (s : State) (nbits w : Nat) : State := { s with cmds := tableCommand nbits w :: s.cmds }

end Sys2Proof.Machine
end

