-- ==== Sys2Proof/Safety.lean ====
section
/-! DEFINITION. What holds of every state a run of MBCOR reaches, in the terms the statements use. -/

namespace Sys2Proof.Machine

/-- The bytes are not yet a complete frame: at most 4, or a response whose declared bytes have not all arrived (10_state.md R28;
41_correlator.md R106, R108). -/
def incomplete (a : Window) : Bool :=
  decide (a.length ≤ 4) || (match functionCode? a, byteCount? a with
    | some fc, some bc => !isExceptionCode fc && decide (a.length < bc.toNat + 5)
    | _, _ => false)

/-- The assembly buffer is empty while no request is pending, and otherwise incomplete (10_state.md R27, R28). -/
def State.asmOk (s : State) : Bool := if s.pend.valid then incomplete s.asm else decide (s.asm = [])

/-- The held request frame has 8 bytes, and while the request is pending its first six are those of the captured fields
(10_state.md R24; 41_correlator.md R101). -/
def State.frameOk (s : State) : Bool :=
  decide (s.pend.frame.length = 8) &&
    (!s.pend.valid || decide (s.pend.frame.take 6 = RequestFrame.head ⟨s.pend.dev, s.pend.start, s.pend.count, 0⟩))

/-- The invariant of MBCOR: the register store in canonical form with legal lengths, the assembly buffer as R27 and R28 say, the
held request frame as R24 says. -/
def State.inv (s : State) : Bool := Store.wf s.store && s.asmOk && s.frameOk

end Sys2Proof.Machine
end

