-- ==== Sys2Proof/Certificates/Slice0/Obligations.lean ====
section
/-! DEFINITION. The statements for the provers. Each says which rule of the spec it formalises. Bytes of the register store are
read by `State.byte?` (none where 20_memory.md R45 defines no read); `s.len d` and `s.alloc d` are `st.store[d].len` and
`st.store[d].alloc`. Where a request stops being pending, a statement says only that `pend.valid` is 0: the other pending fields
are then unspecified (10_state.md R24; log entry 5). -/

open Sys2Proof Sys2Proof.Machine

/-! ### Encodings -/

/-- 30_encoding.md R82: the spec's example command words, as numbers, decode to the commands it names. -/
def Obligations.ExampleCommandWordsDecode : Prop :=
  decodeCommand ⟨0x0000000000010122, [], 0⟩ = .getu16 1 1 ∧
  decodeCommand ⟨0x0000200100000710, [], 0⟩ = .extend 7 8193 ∧
  decodeCommand ⟨0x0000006400000030, [], 0⟩ = .cfgw 0x0000 100 ∧
  decodeCommand ⟨0x00000000000000FF, [], 0⟩ = .reset

/-- The examples of 30_encoding.md R65, R67 and R69 (and of R71 and R72 for noise and a held buffer), byte by byte. -/
def Obligations.ExampleFramesDecode : Prop :=
  decode (.idleWindow [0x01, 0x04, 0x00, 0x00, 0x00, 0x02, 0x71, 0xCB] 5) = .wRequest ⟨1, 0, 2, 0xCB71⟩ [] 5 ∧
  decode (.idleWindow [0x01, 0x84, 0x02, 0xC2, 0xC1] 0) = .wExceptionIdle ⟨1, 0x84, 2, 0xC1C2⟩ [] ∧
  decode (.idleWindow [0x01, 0x80, 0x00, 0x00, 0x00] 0) = .wNoise 0x01 0x80 [0x00, 0x00, 0x00] ∧
  decode (.awaitBuffer [0x01, 0x04, 0x04, 0x00, 0x00, 0x00, 0x01, 0x3A, 0x44]) =
    .aResponse ⟨1, 4, [0x00, 0x00, 0x00, 0x01], 0x443A⟩ [] ∧
  decode (.awaitBuffer [0x01, 0x04, 0x04, 0x00, 0x00]) = .aHoldIncomplete [0x01, 0x04, 0x04, 0x00, 0x00]

/-- 30_encoding.md R76, R78, R80: the word of four fields is the number R76 gives, every 64-bit word is such a word, and its OP
selects the command with the operands R80 lists, every other field ignored. -/
def Obligations.OpcodeSelectsCommandAndOperands : Prop :=
  (∀ op dev idx arg, (commandWord op dev idx arg).toNat =
    arg.toNat * 2 ^ 32 + idx.toNat * 2 ^ 16 + dev.toNat * 2 ^ 8 + op.toNat) ∧
  (∀ c : Command, commandWord c.op c.dev c.idx c.arg = c.cmd) ∧
  (∀ (op dev : Byte) (idx : Half) (arg : Word) (win : Window) (now : Nat),
    decodeCommand ⟨commandWord 0x01 dev idx arg, win, now⟩ = .step win now ∧
    decodeCommand ⟨commandWord 0x02 dev idx arg, win, now⟩ = .read win now ∧
    decodeCommand ⟨commandWord 0x03 dev idx arg, win, now⟩ = .crc16 win ∧
    decodeCommand ⟨commandWord 0x10 dev idx arg, win, now⟩ = .extend dev arg ∧
    decodeCommand ⟨commandWord 0x20 dev idx arg, win, now⟩ = .getf32 dev idx ∧
    decodeCommand ⟨commandWord 0x21 dev idx arg, win, now⟩ = .geti16 dev idx ∧
    decodeCommand ⟨commandWord 0x22 dev idx arg, win, now⟩ = .getu16 dev idx ∧
    decodeCommand ⟨commandWord 0x23 dev idx arg, win, now⟩ = .geti32 dev idx ∧
    decodeCommand ⟨commandWord 0x24 dev idx arg, win, now⟩ = .getu32 dev idx ∧
    decodeCommand ⟨commandWord 0x28 dev idx arg, win, now⟩ = .dump dev ∧
    decodeCommand ⟨commandWord 0x30 dev idx arg, win, now⟩ = .cfgw idx arg ∧
    decodeCommand ⟨commandWord 0x31 dev idx arg, win, now⟩ = .cfgr idx ∧
    decodeCommand ⟨commandWord 0xFF dev idx arg, win, now⟩ = .reset ∧
    (op ∉ assignedOpcodes → decodeCommand ⟨commandWord op dev idx arg, win, now⟩ = .illegal op))

/-- Decode and encode agree, for every well-formed instruction of every row and every value of its operands. -/
def Obligations.DecodeOfEncodeIsTheInstruction : Prop :=
  ∀ i : Instr, i.wf = true → decode (encode i) = i

/-- Frame decoding drops no byte: re-encoding the class a window decodes to gives the window's bytes back. -/
def Obligations.FrameDecodingKeepsEveryByte : Prop :=
  ∀ (w : Window) (now : Nat),
    (encode (decode (.idleWindow w now))).wire? = some w ∧ (encode (decode (.awaitBuffer w))).wire? = some w

/-- Every encoding decodes to a well-formed instruction; a command word to a command, wire bytes to a frame class. -/
def Obligations.DecodingGivesWellFormedInstructions : Prop :=
  (∀ c : Command, (decode (.command c)).wf = true ∧ (decode (.command c)).isCommand = true) ∧
  (∀ (w : Window) (now : Nat), (decode (.idleWindow w now)).wf = true ∧ (decode (.idleWindow w now)).isCommand = false) ∧
  (∀ a : Window, (decode (.awaitBuffer a)).wf = true ∧ (decode (.awaitBuffer a)).isCommand = false)

/-- 30_encoding.md R71: in Idle, the window's length and its byte 1 decide the class and the bytes consumed, in this order. -/
def Obligations.IdleWindowClass : Prop :=
  ∀ (w : Window) (now : Nat),
    (w.length = 0 → decode (.idleWindow w now) = .wEmpty) ∧
    (1 ≤ w.length → w.length ≤ 4 → ∃ dev rest, w = dev :: rest ∧ decode (.idleWindow w now) = .wShort dev rest) ∧
    (8 ≤ w.length → w[1]? = some 0x04 →
      ∃ q : RequestFrame, q.bytes = w.take 8 ∧ decode (.idleWindow w now) = .wRequest q (w.drop 8) now) ∧
    (∀ fc, 5 ≤ w.length → w[1]? = some fc → 0x81 ≤ fc.toNat →
      ∃ e : ExceptionFrame, e.bytes = w.take 5 ∧ decode (.idleWindow w now) = .wExceptionIdle e (w.drop 5)) ∧
    (∀ fc, 5 ≤ w.length → w[1]? = some fc → fc.toNat ≤ 0x80 → (fc = 0x04 → w.length ≤ 7) →
      ∃ dev rest, w = dev :: fc :: rest ∧ decode (.idleWindow w now) = .wNoise dev fc rest)

/-- 30_encoding.md R72: in AwaitingResponse, the class of the assembly buffer with the window appended, and the bytes
consumed. -/
def Obligations.AwaitingBufferClass : Prop :=
  ∀ a : Window,
    (a.length ≤ 4 → decode (.awaitBuffer a) = .aHoldShort a) ∧
    (∀ fc, 5 ≤ a.length → a[1]? = some fc → 0x81 ≤ fc.toNat →
      ∃ e : ExceptionFrame, e.bytes = a.take 5 ∧ decode (.awaitBuffer a) = .aException e (a.drop 5)) ∧
    (∀ fc bc, 5 ≤ a.length → a[1]? = some fc → fc.toNat ≤ 0x80 → a[2]? = some bc → a.length ≤ bc.toNat + 4 →
      decode (.awaitBuffer a) = .aHoldIncomplete a) ∧
    (∀ fc bc, 5 ≤ a.length → a[1]? = some fc → fc.toNat ≤ 0x80 → a[2]? = some bc → bc.toNat + 5 ≤ a.length →
      ∃ r : ResponseFrame, r.bytes = a.take (bc.toNat + 5) ∧ r.data.length = bc.toNat ∧
        decode (.awaitBuffer a) = .aResponse r (a.drop (bc.toNat + 5)))

/-- 20_memory.md R47: start register and count of a request are big-endian on the wire, the CRC of every frame little-endian. -/
def Obligations.WireFieldByteOrder : Prop :=
  (∀ (b0 b2 b3 b4 b5 b6 b7 : Byte) (rest : Window) (now : Nat),
    ∃ q : RequestFrame, decode (.idleWindow (b0 :: 0x04 :: b2 :: b3 :: b4 :: b5 :: b6 :: b7 :: rest) now) =
        .wRequest q rest now ∧
      q.dev = b0 ∧ q.start.toNat = b2.toNat * 256 + b3.toNat ∧ q.count.toNat = b4.toNat * 256 + b5.toNat ∧
      q.crc.toNat = b6.toNat + b7.toNat * 256) ∧
  (∀ (b0 b1 b2 b3 b4 : Byte) (rest : Window) (now : Nat), 0x80 < b1.toNat →
    ∃ e : ExceptionFrame, e.dev = b0 ∧ e.fc = b1 ∧ e.code = b2 ∧ e.crc.toNat = b3.toNat + b4.toNat * 256 ∧
      decode (.idleWindow (b0 :: b1 :: b2 :: b3 :: b4 :: rest) now) = .wExceptionIdle e rest ∧
      decode (.awaitBuffer (b0 :: b1 :: b2 :: b3 :: b4 :: rest)) = .aException e rest) ∧
  (∀ (b0 b1 lo hi : Byte) (data rest : Window), b1.toNat ≤ 0x80 → data.length ≤ 255 →
    ∃ r : ResponseFrame, r.dev = b0 ∧ r.fc = b1 ∧ r.data = data ∧ r.crc.toNat = lo.toNat + hi.toNat * 256 ∧
      decode (.awaitBuffer (b0 :: b1 :: BitVec.ofNat 8 data.length :: (data ++ lo :: hi :: rest))) = .aResponse r rest)

/-! ### A step -/

/-- A step runs the decoded command: the oldest command the host has issued is taken off the queue, decoded, and executed; with
none issued nothing changes (the empty case is the model's choice, log entry 2). -/
def Obligations.StepExecutesTheOldestCommand : Prop :=
  (∀ (s : State) (c : Command) (rest : List Command), s.cmds = c :: rest →
    step s = exec (decode (.command c)) { s with cmds := rest }) ∧
  (∀ s : State, s.cmds = [] → step s = .next s)

/-- 60_exceptions.md R152: no command stops the machine, in any state, and no frame class does. That a step with no command
issued answers a next state too is the model's choice (log entry 2). -/
def Obligations.NoCommandTrapsHaltsOrFaults : Prop :=
  (∀ s : State, ∃ t, step s = .next t) ∧ (∀ (i : Instr) (s : State), ∃ t, exec i s = .next t)

/-! ### CRC -/

/-- 40_crc.md R90: the running CRC starts at 0xFFFF and each byte is XORed into its low byte and shifted out in 8 iterations;
and the worked example. -/
def Obligations.CrcIsComputedBitByBit : Prop :=
  crc16 [] = 0xFFFF ∧
  (∀ (w : Window) (b : Byte), crc16 (w ++ [b]) =
    (fun c : Half => if c.getLsbD 0 then (c >>> 1) ^^^ 0xA001 else c >>> 1)^[8] (crc16 w ^^^ b.setWidth 16)) ∧
  crc16 [0x01, 0x04, 0x00, 0x00, 0x00, 0x01] = 0xCA31

/-- 40_crc.md R92: the CRC16 command returns the checksum and changes nothing else; the empty window gives 0xFFFF, "123456789" in
ASCII gives 0x4B37, and a window followed by its own CRC, low byte first, gives 0. -/
def Obligations.CrcCommandResult : Prop :=
  (∀ (w : Window) (s : State),
    exec (.crc16 w) s = .next { s with out := { Ports.default with res := BitVec.ofNat 32 (crc16 w).toNat } }) ∧
  (crc16 []).toNat = 0xFFFF ∧
  crc16 [0x31, 0x32, 0x33, 0x34, 0x35, 0x36, 0x37, 0x38, 0x39] = 0x4B37 ∧
  (∀ w : Window, crc16 (w ++ [loByte (crc16 w), hiByte (crc16 w)]) = 0)

/-! ### The frame classes in Idle -/

/-- 41_correlator.md R104 and the empty window of R100: a discarded window changes no state, drops every byte and reports
SHORT_FRAME or NOISE; an empty one reports nothing. Where a noise window has 2^32 bytes or more its length does not fit the
event field and the field holds some value (log entry 8). -/
def Obligations.DiscardedWindowOnlyReports : Prop :=
  (∀ s : State, exec .wEmpty s = .next { s with out := { s.out with rem := [] } }) ∧
  (∀ (dev : Byte) (rest : Window) (s : State), (dev :: rest).length ≤ 4 →
    exec (.wShort dev rest) s = .next { s with
      out := { s.out with rem := [], evt := s.out.evt ++ [⟨1, dev, BitVec.ofNat 32 (dev :: rest).length, 0⟩] } }) ∧
  (∀ (dev fc : Byte) (rest : Window) (s : State), ∃ a : Word,
    ((dev :: fc :: rest).length < 2 ^ 32 → a.toNat = (dev :: fc :: rest).length) ∧
    exec (.wNoise dev fc rest) s = .next { s with
      out := { s.out with rem := [], evt := s.out.evt ++ [⟨2, dev, a, BitVec.ofNat 32 fc.toNat⟩] } })

/-- 41_correlator.md R101 and R102: a request is captured whole, whatever its CRC; a CRC mismatch only adds BAD_CRC_REQUEST
before REQUEST_CAPTURED; the bytes after it are returned; nothing else changes. -/
def Obligations.RequestIsCaptured : Prop :=
  ∀ (q : RequestFrame) (rest : Window) (now : Nat) (s : State),
    exec (.wRequest q rest now) s = .next { s with
      pend := { valid := true, dev := q.dev, start := q.start, count := q.count, frame := q.bytes, time := now }
      asm := []
      out := { s.out with
        rem := rest
        evt := s.out.evt ++
          ((if crc16 (q.bytes.take 6) = q.crc then []
            else [⟨3, q.dev, BitVec.ofNat 32 (crc16 (q.bytes.take 6)).toNat, BitVec.ofNat 32 q.crc.toNat⟩]) ++
          [⟨9, q.dev, BitVec.ofNat 32 q.start.toNat, BitVec.ofNat 32 q.count.toNat⟩]) } }

/-- 41_correlator.md R103: an exception frame seen in Idle is reported with b = 0 and consumed, its CRC unchecked, and no state
is written. -/
def Obligations.ExceptionInIdleOnlyReports : Prop :=
  ∀ (e : ExceptionFrame) (rest : Window) (s : State),
    exec (.wExceptionIdle e rest) s = .next { s with
      out := { s.out with
        rem := rest
        evt := s.out.evt ++ [⟨5, e.dev, BitVec.ofNat 32 (e.fc.toNat * 256 + e.code.toNat), 0⟩] } }

/-! ### The frame classes in AwaitingResponse -/

/-- 41_correlator.md R106 and R108: an incomplete buffer is held whole, and nothing else changes. -/
def Obligations.IncompleteBufferIsHeld : Prop :=
  ∀ (a : Window) (s : State),
    exec (.aHoldShort a) s = .next { s with asm := a, out := { s.out with rem := [] } } ∧
    exec (.aHoldIncomplete a) s = .next { s with asm := a, out := { s.out with rem := [] } }

/-- 41_correlator.md R107: an exception frame while awaiting abandons the request, whatever device it names: reported with b = 1,
5 bytes consumed, no store byte written. -/
def Obligations.ExceptionAbandonsTheRequest : Prop :=
  ∀ (e : ExceptionFrame) (rest : Window) (s : State),
    ∃ t, exec (.aException e rest) s = .next t ∧ t.pend.valid = false ∧
      t = { s with
        pend := t.pend
        asm := []
        out := { s.out with
          rem := rest
          evt := s.out.evt ++ [⟨5, e.dev, BitVec.ofNat 32 (e.fc.toNat * 256 + e.code.toNat), 1⟩] } }

/-- 41_correlator.md R109 to R113 with 42_register_store.md R126: a complete response is stored whatever its CRC and length. The
buffer of the response's own device is grown to cover `2 × start + byteCount + 1` bytes, the data bytes go to
`2 × start` and on, those at or past the end are dropped and reported, every other byte of every device keeps its value, grown
bytes read 0, the anomalies are reported in order, and the correlator is Idle. -/
def Obligations.CompleteResponseIsStored : Prop :=
  ∀ (r : ResponseFrame) (rest : Window) (s : State) (base bc len : Nat), Store.wf s.store = true →
    base = 2 * s.pend.start.toNat → bc = r.data.length →
    len = max (max (s.len r.dev) 4096) (min 65536 (4096 * ((base + bc + 1 + 4095) / 4096))) →
    ∃ t, exec (.aResponse r rest) s = .next t ∧ t.pend.valid = false ∧
      t = { s with
        pend := t.pend
        asm := []
        store := t.store
        out := { s.out with
          rem := rest
          evt := s.out.evt ++
            (if crc16 (r.bytes.take (bc + 3)) = r.crc then []
              else [⟨4, r.dev, BitVec.ofNat 32 (crc16 (r.bytes.take (bc + 3))).toNat, BitVec.ofNat 32 r.crc.toNat⟩]) ++
            (if bc = 2 * s.pend.count.toNat then []
              else [⟨6, r.dev, BitVec.ofNat 32 bc, BitVec.ofNat 32 (2 * s.pend.count.toNat)⟩]) ++
            (if base + bc ≤ len ∨ bc = 0 then []
              else [⟨8, r.dev, BitVec.ofNat 32 (max base len), BitVec.ofNat 32 (bc - (len - base))⟩]) ++
            [⟨10, r.dev, BitVec.ofNat 32 base, BitVec.ofNat 32 bc⟩] } } ∧
      t.alloc r.dev = true ∧ t.len r.dev = len ∧
      (∀ d, d ≠ r.dev → t.alloc d = s.alloc d ∧ t.len d = s.len d ∧ ∀ a, t.byte? d a = s.byte? d a) ∧
      (∀ a, base ≤ a → a < base + bc → a < len → t.byte? r.dev a = r.data[a - base]?) ∧
      (∀ a, a < base ∨ base + bc ≤ a → a < s.len r.dev → t.byte? r.dev a = s.byte? r.dev a) ∧
      (∀ a, a < base ∨ base + bc ≤ a → s.len r.dev ≤ a → a < len → t.byte? r.dev a = some 0)

/-- 70_reset_and_hazards.md R187: a response to a request for start 32768 or above completes, but every data byte is dropped and
reported, and the device's buffer grows to 65536 bytes: every byte that was there keeps its value, every byte the growth adds is 0,
and no other device changes. -/
def Obligations.HighRegistersAreNeverStored : Prop :=
  ∀ (r : ResponseFrame) (rest : Window) (s : State), Store.wf s.store = true → 32768 ≤ s.pend.start.toNat →
    r.data.length ≤ 255 →
    ∃ t, exec (.aResponse r rest) s = .next t ∧ t.pend.valid = false ∧ t.alloc r.dev = true ∧ t.len r.dev = 65536 ∧
      (∀ a, a < s.len r.dev → t.byte? r.dev a = s.byte? r.dev a) ∧
      (∀ a, s.len r.dev ≤ a → a < 65536 → t.byte? r.dev a = some 0) ∧
      (∀ d, d ≠ r.dev → t.alloc d = s.alloc d ∧ t.len d = s.len d ∧ ∀ a, t.byte? d a = s.byte? d a) ∧
      (r.data ≠ [] → (⟨8, r.dev, BitVec.ofNat 32 (2 * s.pend.start.toNat), BitVec.ofNat 32 r.data.length⟩ : Event) ∈ t.out.evt)

/-! ### STEP -/

/-- 41_correlator.md R97, R99 and R105: the timeout is judged first, strictly and with truncated subtraction; a timed-out STEP
reports REQUEST_TIMEOUT, drops the request and the held bytes, and runs the Idle class of its window; otherwise the STEP runs the
class its window decodes to in the correlator's state. -/
def Obligations.StepRunsTheClassOfItsWindow : Prop :=
  ∀ (w : Window) (now : Nat) (s : State),
    (s.pend.valid = true → now - s.pend.time > s.cfg.reqTimeout.toNat →
      ∃ p t, p.valid = false ∧ exec (.step w now) s = .next t ∧
        exec (decode (.idleWindow w now)) { s with
          pend := p
          asm := []
          out := { Ports.default with evt :=
            [⟨7, s.pend.dev, BitVec.ofNat 32 s.pend.start.toNat, BitVec.ofNat 32 s.pend.count.toNat⟩] } } = .next t) ∧
    (s.pend.valid = true → now - s.pend.time ≤ s.cfg.reqTimeout.toNat →
      ∃ t, exec (.step w now) s = .next t ∧
        exec (decode (.awaitBuffer (s.asm ++ w))) { s with out := Ports.default } = .next t) ∧
    (s.pend.valid = false →
      ∃ t, exec (.step w now) s = .next t ∧
        exec (decode (.idleWindow w now)) { s with out := Ports.default } = .next t)

/-- 41_correlator.md R114: a STEP with a non-empty REM has removed at least 5 of the bytes it held and leaves the assembly buffer
empty. -/
def Obligations.NonEmptyRemainderConsumesFiveBytes : Prop :=
  ∀ (w : Window) (now : Nat) (s t : State), s.inv = true → exec (.step w now) s = .next t → t.out.rem ≠ [] →
    t.out.rem.length + 5 ≤ s.asm.length + w.length ∧ t.asm = []

/-- 41_correlator.md R117: a complete response fed in two STEPs, split anywhere inside it, ends in the same state with the same
store and the same events as fed in one; the first of the two reports nothing. -/
def Obligations.ResponseMaySplitAnywhere : Prop :=
  ∀ (s : State) (response : Window) (fc bc : Byte) (k now₁ now₂ now : Nat),
    s.pend.valid = true → s.asm = [] → response[1]? = some fc → fc.toNat ≤ 0x80 → response[2]? = some bc →
    response.length = bc.toNat + 5 → 1 ≤ k → k ≤ response.length - 1 →
    now₁ - s.pend.time ≤ s.cfg.reqTimeout.toNat → now₂ - s.pend.time ≤ s.cfg.reqTimeout.toNat →
    now - s.pend.time ≤ s.cfg.reqTimeout.toNat →
    ∃ mid t, exec (.step (response.take k) now₁) s = .next mid ∧ mid.out = Ports.default ∧
      exec (.step (response.drop k) now₂) mid = .next t ∧ exec (.step response now) s = .next t

/-- The frame of STEP and READ: a byte that was present before is unchanged unless a RESPONSE_STORED event of the command names
its device and its offset (`a` is the first offset, `b` the byte count, 60_exceptions.md R153). -/
def Obligations.StoredBytesAreThoseReported : Prop :=
  ∀ (i : Instr) (w : Window) (now : Nat) (s t : State), i = .step w now ∨ i = .read w now → exec i s = .next t →
    ∀ (d : Byte) (a : Nat), a < s.len d →
      (∀ e ∈ t.out.evt, e.code = 10 → e.dev = d → ¬(e.a.toNat ≤ a ∧ a < e.a.toNat + e.b.toNat)) →
      t.byte? d a = s.byte? d a

/-! ### READ -/

/-- 41_correlator.md R115: an empty READ runs no STEP; any other runs a STEP and, while REM is not empty, READs REM with the same
NOW, the events concatenated in STEP order and REM left empty. -/
def Obligations.ReadRunsStepsUntilNoRemainder : Prop :=
  (∀ (now : Nat) (s : State), exec (.read [] now) s = .next { s with out := Ports.default }) ∧
  (∀ (w : Window) (now : Nat) (s s₁ : State), w ≠ [] → exec (.step w now) s = .next s₁ → s₁.out.rem = [] →
    exec (.read w now) s = .next { s₁ with out := { Ports.default with evt := s₁.out.evt } }) ∧
  (∀ (w : Window) (now : Nat) (s s₁ s₂ : State), w ≠ [] → exec (.step w now) s = .next s₁ → s₁.out.rem ≠ [] →
    exec (.read s₁.out.rem now) s₁ = .next s₂ →
    exec (.read w now) s = .next { s₂ with out := { Ports.default with evt := s₁.out.evt ++ s₂.out.evt } })

/-- 41_correlator.md R116: a READ of n bytes with h held completes within floor((h + n) / 5) + 1 STEPs, within floor(n / 5) + 1
from Idle, and within floor((n - 1) / 5) + 2 whatever h is. `drain k` runs at most k STEPs. -/
def Obligations.ReadTerminatesWithinItsBound : Prop :=
  ∀ (w : Window) (now : Nat) (s : State), w ≠ [] →
    ∃ t, exec (.read w now) s = .next t ∧
      drain ((s.asm.length + w.length) / 5 + 1) w now [] s = .ok t ∧
      (s.inv = true → s.pend.valid = false → drain (w.length / 5 + 1) w now [] s = .ok t) ∧
      (s.inv = true → drain ((w.length - 1) / 5 + 2) w now [] s = .ok t)

/-- 41_correlator.md R118 with R101 and R109 to R113: an exchange seen whole in one READ, a request and then a complete response,
is stored: the response's data bytes stand in its device's buffer from twice the request's start register, up to offset 65535, and
the correlator is Idle. -/
def Obligations.ObservedExchangeIsStored : Prop :=
  ∀ (q : RequestFrame) (r : ResponseFrame) (now : Nat) (s : State), Store.wf s.store = true → s.pend.valid = false →
    r.fc.toNat ≤ 0x80 → r.data.length ≤ 255 →
    ∃ t, exec (.read (q.bytes ++ r.bytes) now) s = .next t ∧ t.pend.valid = false ∧ t.asm = [] ∧
      ∀ k, k < r.data.length → 2 * q.start.toNat + k < 65536 → t.byte? r.dev (2 * q.start.toNat + k) = r.data[k]?

/-! ### Invariants and whole-machine rules -/

/-- The reset state meets the invariant. -/
def Obligations.ResetStateMeetsTheInvariant : Prop := State.reset.inv = true

/-- Every step keeps the invariant: the store in canonical form with legal lengths (10_state.md R29), the assembly buffer empty in
Idle and otherwise incomplete (R27, R28), the held request frame that of the captured fields (R24). -/
def Obligations.StepKeepsTheInvariant : Prop :=
  ∀ s t : State, s.inv = true → step s = .next t → t.inv = true

/-- 10_state.md R28: at the end of every command the assembly buffer holds at most 259 bytes. -/
def Obligations.AssemblyBufferStaysBounded : Prop :=
  ∀ s t : State, s.inv = true → step s = .next t → t.asm.length ≤ 259

/-- 10_state.md R29: while a device is unknown its length is 0 and it has no bytes; while it is known its length is a multiple of
4096 from 4096 to 65536 and exactly the offsets below it hold bytes; a step that is not RESET never shrinks a buffer nor forgets
a device. -/
def Obligations.StoreLengthsAreLegalAndNeverShrink : Prop :=
  (∀ s : State, s.inv = true → ∀ d : Byte,
    (s.alloc d = false → s.len d = 0) ∧
    (s.alloc d = true → s.len d % 4096 = 0 ∧ 4096 ≤ s.len d ∧ s.len d ≤ 65536) ∧
    (∀ a, (s.byte? d a).isSome = true ↔ a < s.len d)) ∧
  (∀ s t : State, step s = .next t → (∀ c rest, s.cmds = c :: rest → decode (.command c) ≠ .reset) →
    ∀ d : Byte, s.len d ≤ t.len d ∧ (s.alloc d = true → t.alloc d = true))

/-- 10_state.md R24 and R26: `pend.valid` becomes 1 only by a capture; it becomes 0 only by a timeout, an exception frame while
awaiting, a completed response or RESET; and a request that stays pending keeps all its fields unless one is captured anew. -/
def Obligations.PendingRequestLifetime : Prop :=
  ∀ (i : Instr) (s t : State), i.isCommand = true → exec i s = .next t →
    (s.pend.valid = false → t.pend.valid = true → ∃ e ∈ t.out.evt, e.code = 9) ∧
    (s.pend.valid = true → t.pend.valid = false →
      i = .reset ∨ ∃ e ∈ t.out.evt, e.code = 7 ∨ (e.code = 5 ∧ e.b = 1) ∨ e.code = 10) ∧
    (t.pend.valid = true → (∀ e ∈ t.out.evt, e.code ≠ 9) → t.pend = s.pend)

/-- 10_state.md R24, R40: while no request is pending no rule reads the other pending fields. Two states that differ in them alone
step alike, and still differ at most in them. -/
def Obligations.UnspecifiedPendingFieldsAreNeverRead : Prop :=
  ∀ (s t : State) (p : Pending), p.valid = s.pend.valid → (s.pend.valid = true → p = s.pend) → step s = .next t →
    ∃ q : Pending, q.valid = t.pend.valid ∧ (t.pend.valid = true → q = t.pend) ∧
      step { s with pend := p } = .next { t with pend := q }

/-- 10_state.md R33: DEBUG changes no state, no result and no event of any command but the CFGR that reads it. -/
def Obligations.DebugAffectsNothingButItsOwnRead : Prop :=
  ∀ (i : Instr) (s t : State) (b : Bool), i ≠ .cfgr 0x0001 → exec i s = .next t →
    ∃ b', exec i { s with cfg := { s.cfg with debug := b } } = .next { t with cfg := { t.cfg with debug := b' } }

/-- The frame of every instruction that stores nothing (20_memory.md R46, R55; 60_exceptions.md R166): all but STEP, READ, EXTEND,
RESET and the completed response leave every byte of every device, every length and every allocation. -/
def Obligations.OnlyStoringInstructionsTouchTheStore : Prop :=
  ∀ (i : Instr) (s t : State), exec i s = .next t →
    (∀ w now, i ≠ .step w now ∧ i ≠ .read w now) → (∀ d n, i ≠ .extend d n) → i ≠ .reset →
    (∀ r rest, i ≠ .aResponse r rest) →
    ∀ d : Byte, t.alloc d = s.alloc d ∧ t.len d = s.len d ∧ ∀ a, t.byte? d a = s.byte? d a

/-- The frame of the registers: a configuration register changes only by CFGW and RESET; the pending request and the assembly
buffer only by STEP, READ, RESET and the frame classes; INT_BYTE_ORDER by no instruction (41_correlator.md R98; 20_memory.md R50;
40_crc.md R92; 42_register_store.md R129; 43_accessors.md R143; 44_control.md R144, R150). That no instruction, RESET among them,
changes the host's command stream is the model's choice (log entries 2 and 17). -/
def Obligations.RegistersChangeOnlyByTheirWriters : Prop :=
  ∀ (i : Instr) (s t : State), exec i s = .next t →
    t.cmds = s.cmds ∧ t.order = s.order ∧
    ((∀ idx v, i ≠ .cfgw idx v) → i ≠ .reset → t.cfg = s.cfg) ∧
    (i.isCommand = true → (∀ w now, i ≠ .step w now ∧ i ≠ .read w now) → i ≠ .reset → t.pend = s.pend ∧ t.asm = s.asm)

/-- 44_control.md R149: STATUS is ILLEGAL only for a CFGW or CFGR of a number it may not write or read and for an unassigned
opcode. -/
def Obligations.StatusIsIllegalOnlyThere : Prop :=
  ∀ (i : Instr) (s t : State), i.isCommand = true → exec i s = .next t →
    (t.out.status = .illegal ↔
      (∃ idx v, i = .cfgw idx v ∧ 2 ≤ idx.toNat) ∨ (∃ idx, i = .cfgr idx ∧ 3 ≤ idx.toNat) ∨ (∃ op, i = .illegal op))

/-- 60_exceptions.md R153: every event a command returns has a code from 1 to 11; only STEP, READ and an unassigned opcode return
any, and ILLEGAL_COMMAND comes from an unassigned opcode alone. -/
def Obligations.EventCodesAreThoseOfTheTable : Prop :=
  ∀ (i : Instr) (s t : State), i.isCommand = true → exec i s = .next t →
    (∀ e ∈ t.out.evt, 1 ≤ e.code.toNat ∧ e.code.toNat ≤ 11 ∧ (e.code = 11 ↔ ∃ op, i = .illegal op)) ∧
    (t.out.evt ≠ [] → (∃ w now, i = .step w now ∨ i = .read w now) ∨ ∃ op, i = .illegal op)

/-! ### Growth -/

/-- 42_register_store.md R124, R129 and R131: EXTEND grows the device's buffer to the least multiple of 4096 that covers the
required size (at least 4096, at most 65536, never less than it was), zero-filled with the old bytes kept, returns the new length,
and changes nothing else. -/
def Obligations.ExtendGrowsItsDevice : Prop :=
  ∀ (d : Byte) (size : Word) (s : State), Store.wf s.store = true →
    ∃ t, exec (.extend d size) s = .next t ∧
      t = { s with store := t.store, out := { Ports.default with res := BitVec.ofNat 32 (t.len d) } } ∧
      t.alloc d = true ∧
      t.len d = max (max (s.len d) 4096) (min 65536 (4096 * ((size.toNat + 4095) / 4096))) ∧
      (∀ a, a < s.len d → t.byte? d a = s.byte? d a) ∧
      (∀ a, s.len d ≤ a → a < t.len d → t.byte? d a = some 0) ∧
      (∀ d', d' ≠ d → t.alloc d' = s.alloc d' ∧ t.len d' = s.len d' ∧ ∀ a, t.byte? d' a = s.byte? d' a)

/-- 42_register_store.md R125: over any sequence of Extend calls, lengths never decrease, stay multiples of 4096 from 4096 to
65536, bytes below the old length keep their values, the bytes added are 0, and the last call's size is covered up to 65536. -/
def Obligations.GrowthOverAnySequence : Prop :=
  ∀ (calls : List (Byte × Nat)) (s t : State), Store.wf s.store = true →
    t = calls.foldl (fun u c => extend c.1 c.2 u) s →
    (∀ d : Byte,
      s.len d ≤ t.len d ∧
      (t.alloc d = true → t.len d % 4096 = 0 ∧ 4096 ≤ t.len d ∧ t.len d ≤ 65536) ∧
      (∀ a, a < s.len d → t.byte? d a = s.byte? d a) ∧
      (∀ a, s.len d ≤ a → a < t.len d → t.byte? d a = some 0)) ∧
    (∀ c ∈ calls, t.alloc c.1 = true ∧ min c.2 65536 ≤ t.len c.1)

/-- 42_register_store.md R128: the growth table. -/
def Obligations.GrowthTable : Prop :=
  extendedLen none 0 = 4096 ∧ extendedLen none 1 = 4096 ∧ extendedLen none 4096 = 4096 ∧ extendedLen none 4097 = 8192 ∧
  extendedLen none 65535 = 65536 ∧ extendedLen none 65537 = 65536 ∧ extendedLen none 131326 = 65536 ∧
  extendedLen (some 4096) 4096 = 4096 ∧ extendedLen (some 4096) 4097 = 8192 ∧ extendedLen (some 8192) 100 = 8192 ∧
  extendedLen (some 61440) 61441 = 65536 ∧ extendedLen (some 65536) 99999 = 65536

/-- 42_register_store.md R131: the growth loop ends within 16 passes, from any candidate: more passes change nothing, and where it
ends the loop's condition no longer holds. From an unknown device or a legal length, the length Extend gives is the direct
computation of R131. -/
def Obligations.GrowthLoopEndsWithinSixteenPasses : Prop :=
  (∀ n req cand : Nat, 16 ≤ n → growLoop n req cand = growLoop 16 req cand ∧
    ¬(req > growLoop 16 req cand ∧ growLoop 16 req cand < 65535)) ∧
  (∀ req : Nat, extendedLen none req = max 4096 (min 65536 (4096 * ((req + 4095) / 4096)))) ∧
  (∀ old req : Nat, old % 4096 = 0 → 4096 ≤ old → old ≤ 65536 →
    extendedLen (some old) req = max old (min 65536 (4096 * ((req + 4095) / 4096))))

/-! ### Accessors -/

/-- 43_accessors.md R135: GETU16, under both values of INT_BYTE_ORDER (`s.order`; LE on MBCOR). -/
def Obligations.GetU16Value : Prop :=
  (∀ (d : Byte) (idx : Half) (s : State) (b0 b1 : Byte) (u : Nat),
    s.byte? d (2 * idx.toNat) = some b0 → s.byte? d (2 * idx.toNat + 1) = some b1 →
    u = (match s.order with
      | .le => b0.toNat + b1.toNat * 256
      | .be => b0.toNat * 256 + b1.toNat) →
    exec (.getu16 d idx) s = .next { s with
      out := { Ports.default with res := BitVec.ofNat 32 u, present := true } }) ∧
  (∀ (d : Byte) (idx : Half) (s : State), s.alloc d = false ∨ s.len d < 2 * idx.toNat + 2 →
    exec (.getu16 d idx) s = .next { s with out := Ports.default })

/-- 43_accessors.md R136: GETI16 returns the 16-bit value of GETU16 read as two's complement, as a 32-bit pattern. -/
def Obligations.GetI16Value : Prop :=
  (∀ (d : Byte) (idx : Half) (s : State) (b0 b1 : Byte) (u : Nat),
    s.byte? d (2 * idx.toNat) = some b0 → s.byte? d (2 * idx.toNat + 1) = some b1 →
    u = (match s.order with
      | .le => b0.toNat + b1.toNat * 256
      | .be => b0.toNat * 256 + b1.toNat) →
    exec (.geti16 d idx) s = .next { s with
      out := { Ports.default with
        res := BitVec.ofInt 32 (if u < 2 ^ 15 then (u : Int) else (u : Int) - 2 ^ 16), present := true } }) ∧
  (∀ (d : Byte) (idx : Half) (s : State), s.alloc d = false ∨ s.len d < 2 * idx.toNat + 2 →
    exec (.geti16 d idx) s = .next { s with out := Ports.default })

/-- 43_accessors.md R137: GETU32, under both values of INT_BYTE_ORDER (`s.order`; LE on MBCOR). -/
def Obligations.GetU32Value : Prop :=
  (∀ (d : Byte) (idx : Half) (s : State) (b0 b1 b2 b3 : Byte) (u : Nat),
    s.byte? d (2 * idx.toNat) = some b0 → s.byte? d (2 * idx.toNat + 1) = some b1 →
    s.byte? d (2 * idx.toNat + 2) = some b2 → s.byte? d (2 * idx.toNat + 3) = some b3 →
    u = (match s.order with
      | .le => b0.toNat + b1.toNat * 2 ^ 8 + b2.toNat * 2 ^ 16 + b3.toNat * 2 ^ 24
      | .be => b0.toNat * 2 ^ 24 + b1.toNat * 2 ^ 16 + b2.toNat * 2 ^ 8 + b3.toNat) →
    exec (.getu32 d idx) s = .next { s with
      out := { Ports.default with res := BitVec.ofNat 32 u, present := true } }) ∧
  (∀ (d : Byte) (idx : Half) (s : State), s.alloc d = false ∨ s.len d < 2 * idx.toNat + 4 →
    exec (.getu32 d idx) s = .next { s with out := Ports.default })

/-- 43_accessors.md R138: GETI32 returns the pattern of GETU32, whose signed meaning is the two's-complement value. -/
def Obligations.GetI32Value : Prop :=
  (∀ (d : Byte) (idx : Half) (s : State) (b0 b1 b2 b3 : Byte) (u : Nat),
    s.byte? d (2 * idx.toNat) = some b0 → s.byte? d (2 * idx.toNat + 1) = some b1 →
    s.byte? d (2 * idx.toNat + 2) = some b2 → s.byte? d (2 * idx.toNat + 3) = some b3 →
    u = (match s.order with
      | .le => b0.toNat + b1.toNat * 2 ^ 8 + b2.toNat * 2 ^ 16 + b3.toNat * 2 ^ 24
      | .be => b0.toNat * 2 ^ 24 + b1.toNat * 2 ^ 16 + b2.toNat * 2 ^ 8 + b3.toNat) →
    exec (.geti32 d idx) s = .next { s with
      out := { Ports.default with res := BitVec.ofNat 32 u, present := true } } ∧
    (BitVec.ofNat 32 u).toInt = if u < 2 ^ 31 then (u : Int) else (u : Int) - 2 ^ 32) ∧
  (∀ (d : Byte) (idx : Half) (s : State), s.alloc d = false ∨ s.len d < 2 * idx.toNat + 4 →
    exec (.geti32 d idx) s = .next { s with out := Ports.default })

/-- 43_accessors.md R139: GETF32 returns the big-endian pattern, whatever INT_BYTE_ORDER is. -/
def Obligations.GetF32Value : Prop :=
  (∀ (d : Byte) (idx : Half) (s : State) (b0 b1 b2 b3 : Byte),
    s.byte? d (2 * idx.toNat) = some b0 → s.byte? d (2 * idx.toNat + 1) = some b1 →
    s.byte? d (2 * idx.toNat + 2) = some b2 → s.byte? d (2 * idx.toNat + 3) = some b3 →
    exec (.getf32 d idx) s = .next { s with
      out := { Ports.default with
        res := BitVec.ofNat 32 (b0.toNat * 2 ^ 24 + b1.toNat * 2 ^ 16 + b2.toNat * 2 ^ 8 + b3.toNat), present := true } }) ∧
  (∀ (d : Byte) (idx : Half) (s : State), s.alloc d = false ∨ s.len d < 2 * idx.toNat + 4 →
    exec (.getf32 d idx) s = .next { s with out := Ports.default })

/-- 20_memory.md R51: under LE, a 32-bit read is made of the two 16-bit reads of its registers whenever both are present, and
GETF32 of one index is the byte reversal of GETU32. -/
def Obligations.MixedWidthViewsAgree : Prop :=
  ∀ (d : Byte) (idx : Half) (s t₀ t₁ t f : State), s.order = .le → idx.toNat < 65535 →
    exec (.getu16 d idx) s = .next t₀ → exec (.getu16 d (idx + 1)) s = .next t₁ →
    exec (.getu32 d idx) s = .next t → exec (.getf32 d idx) s = .next f →
    t₀.out.present = true → t₁.out.present = true →
    t.out.present = true ∧ f.out.present = true ∧
    t.out.res.toNat = t₀.out.res.toNat + t₁.out.res.toNat * 65536 ∧
    (∀ i, i < 8 → f.out.res.getLsbD i = t.out.res.getLsbD (24 + i)) ∧
    (∀ i, i < 8 → f.out.res.getLsbD (8 + i) = t.out.res.getLsbD (16 + i)) ∧
    (∀ i, i < 8 → f.out.res.getLsbD (16 + i) = t.out.res.getLsbD (8 + i)) ∧
    (∀ i, i < 8 → f.out.res.getLsbD (24 + i) = t.out.res.getLsbD i)

/-- 43_accessors.md R142: DUMP returns exactly the device's bytes, offset 0 first, and nothing for an unknown device. -/
def Obligations.DumpReturnsTheBuffer : Prop :=
  ∀ (d : Byte) (s : State), ∃ t, exec (.dump d) s = .next t ∧
    t = { s with out := { Ports.default with dout := t.out.dout } } ∧
    (s.alloc d = false → t.out.dout = []) ∧
    t.out.dout.length = s.len d ∧
    (∀ a, t.out.dout[a]? = s.byte? d a)

/-- 43_accessors.md R143: no accessor and no DUMP writes any state, emits any event or allocates a buffer; repeating it gives the
same result, and so does running it in any state with the same register store and INT_BYTE_ORDER. -/
def Obligations.ReadsHaveNoSideEffect : Prop :=
  ∀ (i : Instr) (s t : State),
    (∃ d idx, i = .getf32 d idx ∨ i = .geti16 d idx ∨ i = .getu16 d idx ∨ i = .geti32 d idx ∨ i = .getu32 d idx) ∨
      (∃ d, i = .dump d) →
    exec i s = .next t →
    t = { s with out := t.out } ∧ t.out.evt = [] ∧ exec i t = .next t ∧
    (∀ u : State, u.store = s.store → u.order = s.order → exec i u = .next { u with out := t.out })

/-- 20_memory.md R57: registers with index 32768 or more are always absent, and so is a 32-bit read at index 32767. -/
def Obligations.RegistersFrom32768AreAbsent : Prop :=
  ∀ (d : Byte) (idx : Half) (s : State), s.inv = true →
    (32768 ≤ idx.toNat → exec (.geti16 d idx) s = .next { s with out := Ports.default } ∧
      exec (.getu16 d idx) s = .next { s with out := Ports.default }) ∧
    (32767 ≤ idx.toNat → exec (.geti32 d idx) s = .next { s with out := Ports.default } ∧
      exec (.getu32 d idx) s = .next { s with out := Ports.default } ∧
      exec (.getf32 d idx) s = .next { s with out := Ports.default })

/-! ### Control -/

/-- 44_control.md R144 and R145: CFGW writes REQUEST_TIMEOUT whole and bit 0 of DEBUG; any other number changes nothing and is
ILLEGAL. -/
def Obligations.CfgwWritesItsRegister : Prop :=
  ∀ (v : Word) (s : State),
    exec (.cfgw 0x0000 v) s = .next { s with cfg := { s.cfg with reqTimeout := v }, out := Ports.default } ∧
    exec (.cfgw 0x0001 v) s = .next { s with cfg := { s.cfg with debug := v[0] }, out := Ports.default } ∧
    (∀ idx : Half, 2 ≤ idx.toNat →
      exec (.cfgw idx v) s = .next { s with out := { Ports.default with status := .illegal } })

/-- 44_control.md R146 and R147: CFGR reads REQUEST_TIMEOUT, DEBUG and ORDER (1 where INT_BYTE_ORDER is BE, else 0); any other
number returns 0 and ILLEGAL. -/
def Obligations.CfgrReadsItsRegister : Prop :=
  ∀ s : State,
    exec (.cfgr 0x0000) s = .next { s with out := { Ports.default with res := s.cfg.reqTimeout } } ∧
    exec (.cfgr 0x0001) s = .next { s with out := { Ports.default with res := if s.cfg.debug then 1 else 0 } } ∧
    exec (.cfgr 0x0002) s = .next { s with out := { Ports.default with res := if s.order = .be then 1 else 0 } } ∧
    (∀ idx : Half, 3 ≤ idx.toNat →
      exec (.cfgr idx) s = .next { s with out := { Ports.default with status := .illegal } })

/-- 10_state.md R32 and R33: what CFGW has written, CFGR reads back: REQUEST_TIMEOUT whole, of DEBUG bit 0 alone. -/
def Obligations.ConfigurationReadsBack : Prop :=
  ∀ (v : Word) (s t : State),
    (exec (.cfgw 0x0000 v) s = .next t →
      exec (.cfgr 0x0000) t = .next { t with out := { Ports.default with res := v } }) ∧
    (exec (.cfgw 0x0001 v) s = .next t →
      exec (.cfgr 0x0001) t = .next { t with out := { Ports.default with res := v &&& 1 } })

/-- 10_state.md R40, 44_control.md R150: RESET and power-on give Idle, an empty assembly buffer, no device, REQUEST_TIMEOUT_RESET
saturated, DEBUG 0, STATUS OK and no event; RESET does not change INT_BYTE_ORDER,
which is LE on MBCOR. -/
def Obligations.ResetEstablishesTheResetState : Prop :=
  State.reset.order = .le ∧
  ∀ s : State, ∃ t, exec .reset s = .next t ∧ t.out = Ports.default ∧ t.order = s.order ∧
    ∀ u, u = t ∨ u = State.reset →
      u.pend.valid = false ∧ u.asm = [] ∧ u.cfg.debug = false ∧
      u.cfg.reqTimeout.toNat = min (64 * Config.interFrameTimeout) (2 ^ 32 - 1) ∧
      (∀ d : Byte, u.alloc d = false ∧ u.len d = 0 ∧ ∀ a, u.byte? d a = none)

/-- 30_encoding.md R79 and 44_control.md R148: the unassigned opcodes are those of the listed ranges; such a command changes no
state and returns STATUS = ILLEGAL with the one event ILLEGAL_COMMAND. -/
def Obligations.UnassignedOpcodeIsIllegal : Prop :=
  (∀ op : Byte, op ∉ assignedOpcodes ↔
    op.toNat = 0x00 ∨ (0x04 ≤ op.toNat ∧ op.toNat ≤ 0x0F) ∨ (0x11 ≤ op.toNat ∧ op.toNat ≤ 0x1F) ∨
    (0x25 ≤ op.toNat ∧ op.toNat ≤ 0x27) ∨ (0x29 ≤ op.toNat ∧ op.toNat ≤ 0x2F) ∨
    (0x32 ≤ op.toNat ∧ op.toNat ≤ 0xFE)) ∧
  (∀ c : Command, c.op ∉ assignedOpcodes → decode (.command c) = .illegal c.op) ∧
  (∀ (op : Byte) (s : State), exec (.illegal op) s = .next { s with
    out := { Ports.default with status := .illegal, evt := [⟨11, 0, BitVec.ofNat 32 op.toNat, 0⟩] } })
end

