-- ==== Sys2Proof/Laws/Memory.lean ====
section
/-! SUPPORT. The laws of the sorted lists that hold the store: what a read gives after a write, and that every operation keeps
the canonical form. -/

namespace Sys2Proof.Machine

section Lists

variable {α : Type}

/-! ### Lookup -/

@[simp] theorem lookup_insert_self (l : List (Nat × α)) (a : Nat) (x : α) : lookup (insert l a x) a = some x := by
  induction l with
  | nil => simp [insert, lookup]
  | cons c l ih =>
    simp only [insert]
    split_ifs with h₁ h₂
    · simp [lookup]
    · simp [lookup]
    · simp [lookup, h₂, ih]

theorem lookup_insert_of_ne {a b : Nat} (h : b ≠ a) (l : List (Nat × α)) (x : α) :
    lookup (insert l a x) b = lookup l b := by
  induction l with
  | nil => simp [insert, lookup, Ne.symm h]
  | cons c l ih =>
    simp only [insert]
    split_ifs with h₁ h₂
    · simp [lookup, Ne.symm h]
    · simp [lookup, h₂, Ne.symm h]
    · simp [lookup, ih]

theorem lookup_filter (p : Nat → Bool) (l : List (Nat × α)) (a : Nat) :
    lookup (l.filter fun c => p c.1) a = if p a then lookup l a else none := by
  induction l with
  | nil => simp [lookup]
  | cons c l ih =>
    by_cases hp : p c.1
    · by_cases hc : c.1 = a
      · simp [lookup, ← hc, hp]
      · simp [lookup, hp, hc, ih]
    · by_cases hc : c.1 = a
      · subst hc
        simp [hp, ih]
      · simp [lookup, hp, hc, ih]

@[simp] theorem lookup_erase (l : List (Nat × α)) (a b : Nat) :
    lookup (erase l a) b = if b = a then none else lookup l b := by
  have h := lookup_filter (fun k => decide (k ≠ a)) l b
  by_cases hb : b = a <;> simpa [erase, hb] using h

/-! ### The canonical form -/

theorem rising_iff_pairwise (l : List (Nat × α)) : rising l = true ↔ l.Pairwise (fun c d => c.1 < d.1) := by
  induction l with
  | nil => simp [rising]
  | cons c l ih =>
    cases l with
    | nil => simp [rising]
    | cons d l =>
      simp only [rising, Bool.and_eq_true, decide_eq_true_eq, ih, List.pairwise_cons]
      constructor
      · rintro ⟨hcd, hd, hl⟩
        refine ⟨?_, hd, hl⟩
        intro e he
        rcases List.mem_cons.mp he with rfl | he
        · exact hcd
        · exact lt_trans hcd (hd e he)
      · rintro ⟨hc, hd, hl⟩
        exact ⟨hc d (by simp), hd, hl⟩

theorem mem_insert {l : List (Nat × α)} {a : Nat} {x : α} {c : Nat × α} (h : c ∈ insert l a x) :
    c = (a, x) ∨ c ∈ l := by
  induction l with
  | nil => simpa [insert] using h
  | cons d l ih =>
    simp only [insert] at h
    split_ifs at h with h₁ h₂
    · simpa using h
    · rcases List.mem_cons.mp h with h | h
      · exact .inl h
      · exact .inr (List.mem_cons_of_mem _ h)
    · rcases List.mem_cons.mp h with h | h
      · exact .inr (by simp [h])
      · exact (ih h).imp id (List.mem_cons_of_mem _)

theorem rising_insert {l : List (Nat × α)} (h : rising l = true) (a : Nat) (x : α) : rising (insert l a x) = true := by
  rw [rising_iff_pairwise] at h ⊢
  induction l with
  | nil => simp [insert]
  | cons c l ih =>
    obtain ⟨hc, hl⟩ := List.pairwise_cons.mp h
    simp only [insert]
    split_ifs with h₁ h₂
    · refine List.pairwise_cons.mpr ⟨?_, h⟩
      intro d hd
      rcases List.mem_cons.mp hd with rfl | hd
      · exact h₁
      · exact lt_trans h₁ (hc d hd)
    · exact List.pairwise_cons.mpr ⟨fun d hd => by simpa [← h₂] using hc d hd, hl⟩
    · refine List.pairwise_cons.mpr ⟨?_, ih hl⟩
      intro d hd
      rcases mem_insert hd with rfl | hd
      · show c.1 < a
        omega
      · exact hc d hd

theorem rising_filter {l : List (Nat × α)} (h : rising l = true) (p : Nat × α → Bool) : rising (l.filter p) = true := by
  rw [rising_iff_pairwise] at h ⊢
  exact h.filter p

/-- In a list whose keys rise, membership is what a lookup finds. -/
theorem mem_iff_lookup {l : List (Nat × α)} (h : rising l = true) (a : Nat) (x : α) :
    (a, x) ∈ l ↔ lookup l a = some x := by
  rw [rising_iff_pairwise] at h
  induction l with
  | nil => simp [lookup]
  | cons c l ih =>
    obtain ⟨hc, hl⟩ := List.pairwise_cons.mp h
    by_cases hk : c.1 = a
    · have hnot : (a, x) ∉ l := fun hm => by have := hc _ hm; simp [hk] at this
      simp only [lookup, hk, if_true, List.mem_cons, hnot, or_false, Option.some.injEq]
      constructor
      · rintro rfl
        rfl
      · rintro rfl
        exact Prod.ext hk.symm rfl
    · have hne : (a, x) ≠ c := fun he => hk (by rw [← he])
      simp [lookup, hk, hne, ih hl]

/-- Two rising lists that answer every lookup alike are equal. -/
theorem rising_ext {l m : List (Nat × α)} (hl : rising l = true) (hm : rising m = true)
    (h : ∀ a, lookup l a = lookup m a) : l = m := by
  have hmem : ∀ c, c ∈ l ↔ c ∈ m := fun (a, x) => by rw [mem_iff_lookup hl, mem_iff_lookup hm, h]
  rw [rising_iff_pairwise] at hl hm
  have hperm : l.Perm m := by
    refine (List.perm_ext_iff_of_nodup ?_ ?_).mpr hmem
    · exact hl.imp fun {a b} hab he => by simp [he] at hab
    · exact hm.imp fun {a b} hab he => by simp [he] at hab
  exact hperm.eq_of_pairwise (fun a b _ _ hab hba => absurd hab (by omega)) hl hm

end Lists

/-! ### Memory -/

/-- A read after a write: the written byte there, the old one everywhere else. -/
theorem Memory.read_write (m : Memory) (a : Nat) (x : Byte) (b : Nat) :
    (m.write a x).read b = if b = a then x else m.read b := by
  unfold Memory.read Memory.write
  by_cases hx : x = unlistedByte <;> by_cases hb : b = a
  · simp [hx, hb]
  · simp [hx, hb]
  · simp [hx, hb]
  · simp [hx, hb, lookup_insert_of_ne hb]

theorem Memory.read_below (m : Memory) (n a : Nat) :
    (m.below n).read a = if a < n then m.read a else unlistedByte := by
  have h := lookup_filter (fun k => decide (k < n)) m a
  unfold Memory.read Memory.below
  rw [h]
  by_cases ha : a < n <;> simp [ha]

/-- A write keeps the canonical form. -/
theorem Memory.wf_write {m : Memory} (h : m.wf = true) (a : Nat) (x : Byte) : (m.write a x).wf = true := by
  simp only [Memory.wf, Bool.and_eq_true, List.all_eq_true, decide_eq_true_eq] at h ⊢
  unfold Memory.write
  split_ifs with hx
  · exact ⟨rising_filter h.1 _, fun c hc => h.2 c (List.mem_of_mem_filter hc)⟩
  · refine ⟨rising_insert h.1 _ _, fun c hc => ?_⟩
    rcases mem_insert hc with rfl | hc
    · exact hx
    · exact h.2 c hc

theorem Memory.mem_write {m : Memory} {a : Nat} {x : Byte} {c : Host.Cell} (h : c ∈ m.write a x) : c.1 = a ∨ c ∈ m := by
  unfold Memory.write at h
  split_ifs at h
  · exact .inr (List.mem_of_mem_filter h)
  · exact (mem_insert h).imp (fun h => by rw [h]) id

/-- Taking over the cells below a length keeps the canonical form. -/
theorem Memory.wf_below {m : Memory} (h : m.wf = true) (n : Nat) : (m.below n).wf = true := by
  simp only [Memory.wf, Bool.and_eq_true, List.all_eq_true] at h ⊢
  exact ⟨rising_filter h.1 _, fun c hc => h.2 c (List.mem_of_mem_filter hc)⟩

/-- Equal memories are equal data: two canonical memories that read alike everywhere are equal. -/
theorem Memory.ext_of_read {m n : Memory} (hm : m.wf = true) (hn : n.wf = true) (h : ∀ a, m.read a = n.read a) :
    m = n := by
  simp only [Memory.wf, Bool.and_eq_true, List.all_eq_true, decide_eq_true_eq] at hm hn
  have nonzero : ∀ {l : Memory}, rising l = true → (∀ c ∈ l, c.2 ≠ unlistedByte) →
      ∀ a, lookup l a ≠ some unlistedByte :=
    fun hr hz a ha => hz _ ((mem_iff_lookup hr a _).mpr ha) rfl
  refine rising_ext hm.1 hn.1 fun a => ?_
  have ha := h a
  have hma := nonzero hm.1 hm.2 a
  have hna := nonzero hn.1 hn.2 a
  unfold Memory.read at ha
  cases hl : lookup m a <;> cases hr : lookup n a <;> simp_all

end Sys2Proof.Machine
end

