-- ==== Sys2Proof/Laws/State.lean ====
section
/-! SUPPORT. One lemma per field per update of State, so that no later proof unfolds a record update. -/

namespace Sys2Proof.Machine

variable (s : State)

@[simp] theorem State.clearOut_pend : s.clearOut.pend = s.pend := rfl
@[simp] theorem State.clearOut_asm : s.clearOut.asm = s.asm := rfl
@[simp] theorem State.clearOut_store : s.clearOut.store = s.store := rfl
@[simp] theorem State.clearOut_cfg : s.clearOut.cfg = s.cfg := rfl
@[simp] theorem State.clearOut_order : s.clearOut.order = s.order := rfl
@[simp] theorem State.clearOut_out : s.clearOut.out = Ports.default := rfl
@[simp] theorem State.clearOut_cmds : s.clearOut.cmds = s.cmds := rfl

@[simp] theorem State.emit_pend (e : Event) : (s.emit e).pend = s.pend := rfl
@[simp] theorem State.emit_asm (e : Event) : (s.emit e).asm = s.asm := rfl
@[simp] theorem State.emit_store (e : Event) : (s.emit e).store = s.store := rfl
@[simp] theorem State.emit_cfg (e : Event) : (s.emit e).cfg = s.cfg := rfl
@[simp] theorem State.emit_order (e : Event) : (s.emit e).order = s.order := rfl
@[simp] theorem State.emit_out (e : Event) : (s.emit e).out = { s.out with evt := s.out.evt ++ [e] } := rfl
@[simp] theorem State.emit_cmds (e : Event) : (s.emit e).cmds = s.cmds := rfl

@[simp] theorem State.emitIf_pend (c : Bool) (e : Event) : (s.emitIf c e).pend = s.pend := by cases c <;> rfl
@[simp] theorem State.emitIf_asm (c : Bool) (e : Event) : (s.emitIf c e).asm = s.asm := by cases c <;> rfl
@[simp] theorem State.emitIf_store (c : Bool) (e : Event) : (s.emitIf c e).store = s.store := by cases c <;> rfl
@[simp] theorem State.emitIf_cfg (c : Bool) (e : Event) : (s.emitIf c e).cfg = s.cfg := by cases c <;> rfl
@[simp] theorem State.emitIf_order (c : Bool) (e : Event) : (s.emitIf c e).order = s.order := by cases c <;> rfl
@[simp] theorem State.emitIf_cmds (c : Bool) (e : Event) : (s.emitIf c e).cmds = s.cmds := by cases c <;> rfl
@[simp] theorem State.emitIf_out (c : Bool) (e : Event) :
    (s.emitIf c e).out = { s.out with evt := s.out.evt ++ (if c then [e] else []) } := by
  cases c <;> simp [State.emitIf]

@[simp] theorem State.setRem_pend (w : Window) : (s.setRem w).pend = s.pend := rfl
@[simp] theorem State.setRem_asm (w : Window) : (s.setRem w).asm = s.asm := rfl
@[simp] theorem State.setRem_store (w : Window) : (s.setRem w).store = s.store := rfl
@[simp] theorem State.setRem_cfg (w : Window) : (s.setRem w).cfg = s.cfg := rfl
@[simp] theorem State.setRem_order (w : Window) : (s.setRem w).order = s.order := rfl
@[simp] theorem State.setRem_out (w : Window) : (s.setRem w).out = { s.out with rem := w } := rfl
@[simp] theorem State.setRem_cmds (w : Window) : (s.setRem w).cmds = s.cmds := rfl

@[simp] theorem State.setBuffer_pend (d : Byte) (b : Buffer) : (s.setBuffer d b).pend = s.pend := rfl
@[simp] theorem State.setBuffer_asm (d : Byte) (b : Buffer) : (s.setBuffer d b).asm = s.asm := rfl
@[simp] theorem State.setBuffer_store (d : Byte) (b : Buffer) : (s.setBuffer d b).store = insert s.store d.toNat b := rfl
@[simp] theorem State.setBuffer_cfg (d : Byte) (b : Buffer) : (s.setBuffer d b).cfg = s.cfg := rfl
@[simp] theorem State.setBuffer_order (d : Byte) (b : Buffer) : (s.setBuffer d b).order = s.order := rfl
@[simp] theorem State.setBuffer_out (d : Byte) (b : Buffer) : (s.setBuffer d b).out = s.out := rfl
@[simp] theorem State.setBuffer_cmds (d : Byte) (b : Buffer) : (s.setBuffer d b).cmds = s.cmds := rfl

@[simp] theorem State.toIdle_pend : s.toIdle.pend = { s.pend with valid := false } := rfl
@[simp] theorem State.toIdle_asm : s.toIdle.asm = [] := rfl
@[simp] theorem State.toIdle_store : s.toIdle.store = s.store := rfl
@[simp] theorem State.toIdle_cfg : s.toIdle.cfg = s.cfg := rfl
@[simp] theorem State.toIdle_order : s.toIdle.order = s.order := rfl
@[simp] theorem State.toIdle_out : s.toIdle.out = s.out := rfl
@[simp] theorem State.toIdle_cmds : s.toIdle.cmds = s.cmds := rfl

@[simp] theorem State.toAwaiting_pend (q : RequestFrame) (now : Nat) :
    (s.toAwaiting q now).pend =
      { valid := true, dev := q.dev, start := q.start, count := q.count, frame := q.bytes, time := now } := rfl
@[simp] theorem State.toAwaiting_asm (q : RequestFrame) (now : Nat) : (s.toAwaiting q now).asm = [] := rfl
@[simp] theorem State.toAwaiting_store (q : RequestFrame) (now : Nat) : (s.toAwaiting q now).store = s.store := rfl
@[simp] theorem State.toAwaiting_cfg (q : RequestFrame) (now : Nat) : (s.toAwaiting q now).cfg = s.cfg := rfl
@[simp] theorem State.toAwaiting_order (q : RequestFrame) (now : Nat) : (s.toAwaiting q now).order = s.order := rfl
@[simp] theorem State.toAwaiting_out (q : RequestFrame) (now : Nat) : (s.toAwaiting q now).out = s.out := rfl
@[simp] theorem State.toAwaiting_cmds (q : RequestFrame) (now : Nat) : (s.toAwaiting q now).cmds = s.cmds := rfl

@[simp] theorem State.timeout_pend : s.timeout.pend = { s.pend with valid := false } := rfl
@[simp] theorem State.timeout_asm : s.timeout.asm = [] := rfl
@[simp] theorem State.timeout_store : s.timeout.store = s.store := rfl
@[simp] theorem State.timeout_cfg : s.timeout.cfg = s.cfg := rfl
@[simp] theorem State.timeout_order : s.timeout.order = s.order := rfl
@[simp] theorem State.timeout_out : s.timeout.out =
    { s.out with evt := s.out.evt ++ [.requestTimeout s.pend.dev s.pend.start s.pend.count] } := rfl
@[simp] theorem State.timeout_cmds : s.timeout.cmds = s.cmds := rfl

/-! The store's views depend on the store alone. -/

theorem State.buffer?_congr {s t : State} (h : t.store = s.store) (d : Byte) : t.buffer? d = s.buffer? d := by
  simp [State.buffer?, h]

theorem State.alloc_congr {s t : State} (h : t.store = s.store) (d : Byte) : t.alloc d = s.alloc d := by
  simp [State.alloc, State.buffer?_congr h]

theorem State.len_congr {s t : State} (h : t.store = s.store) (d : Byte) : t.len d = s.len d := by
  simp [State.len, State.buffer?_congr h]

theorem State.byte?_congr {s t : State} (h : t.store = s.store) (d : Byte) (a : Nat) : t.byte? d a = s.byte? d a := by
  simp [State.byte?, storeRead, State.buffer?_congr h]

end Sys2Proof.Machine
end

