-- ==== Sys2Proof/Laws/Store.lean ====
section
/-! SUPPORT. What the store primitives, growth and the response write do: one lemma each that says all of it, and that each
keeps the store's canonical form. -/

namespace Sys2Proof.Machine

/-! ### Buffers -/

theorem buffer?_setBuffer (s : State) (d : Byte) (b : Buffer) (d' : Byte) :
    (s.setBuffer d b).buffer? d' = if d' = d then some b else s.buffer? d' := by
  unfold State.buffer? State.setBuffer
  by_cases h : d' = d
  · simp [h]
  · have hn : d'.toNat ≠ d.toNat := fun he => h (BitVec.eq_of_toNat_eq he)
    simp [h, lookup_insert_of_ne hn]

theorem alloc_eq (s : State) (d : Byte) : s.alloc d = (s.buffer? d).isSome := rfl

theorem len_of_buffer {s : State} {d : Byte} {b : Buffer} (h : s.buffer? d = some b) : s.len d = b.len := by
  simp [State.len, h]

theorem len_of_unknown {s : State} {d : Byte} (h : s.buffer? d = none) : s.len d = 0 := by
  simp [State.len, h]

/-- What a read of one byte answers. -/
theorem byte?_eq (s : State) (d : Byte) (a : Nat) :
    s.byte? d a = (s.buffer? d).bind fun b => if a < b.len then some (b.cells.read a) else none := by
  unfold State.byte? storeRead
  cases s.buffer? d with
  | none => rfl
  | some b => by_cases h : a < b.len <;> simp [h]

theorem byte?_of_buffer {s : State} {d : Byte} {b : Buffer} (h : s.buffer? d = some b) (a : Nat) :
    s.byte? d a = if a < b.len then some (b.cells.read a) else none := by
  simp [byte?_eq, h]

theorem byte?_of_unknown {s : State} {d : Byte} (h : s.buffer? d = none) (a : Nat) : s.byte? d a = none := by
  simp [byte?_eq, h]

/-- A byte is present exactly below the length of its device's buffer. -/
theorem byte?_isSome (s : State) (d : Byte) (a : Nat) : (s.byte? d a).isSome = decide (a < s.len d) := by
  cases h : s.buffer? d with
  | none => simp [byte?_of_unknown h, len_of_unknown h]
  | some b => by_cases ha : a < b.len <;> simp [byte?_of_buffer h, len_of_buffer h, ha]

/-- StoreRead answers exactly where a byte is present. -/
theorem storeRead_eq (d : Byte) (a : Nat) (s : State) :
    storeRead d a s = match s.byte? d a with
      | some x => .ok x
      | none => .error .storeOutOfDomain := by
  unfold State.byte? storeRead
  cases s.buffer? d with
  | none => rfl
  | some b => by_cases h : a < b.len <;> simp [h]

theorem setBuffer_byte? (s : State) (d : Byte) (b : Buffer) (d' : Byte) (a : Nat) :
    (s.setBuffer d b).byte? d' a =
      if d' = d then (if a < b.len then some (b.cells.read a) else none) else s.byte? d' a := by
  by_cases h : d' = d <;> simp [byte?_eq, buffer?_setBuffer, h]

/-! ### The canonical form -/

/-- A buffer found in a well-formed store is well formed. -/
theorem Store.wf_buffer {s : State} (h : Store.wf s.store = true) {d : Byte} {b : Buffer} (hb : s.buffer? d = some b) :
    b.wf = true := by
  simp only [Store.wf, Bool.and_eq_true, List.all_eq_true, decide_eq_true_eq] at h
  exact (h.2 _ ((mem_iff_lookup h.1 _ _).mpr hb)).2

/-- Replacing a buffer by a well-formed one keeps the store's form. -/
theorem Store.wf_setBuffer {s : State} (h : Store.wf s.store = true) (d : Byte) {b : Buffer} (hb : b.wf = true) :
    Store.wf (s.setBuffer d b).store = true := by
  simp only [Store.wf, Bool.and_eq_true, List.all_eq_true, decide_eq_true_eq, State.setBuffer_store] at h ⊢
  refine ⟨rising_insert h.1 _ _, fun c hc => ?_⟩
  rcases mem_insert hc with rfl | hc
  · exact ⟨d.isLt, hb⟩
  · exact h.2 c hc

theorem Buffer.wf_write {b : Buffer} (h : b.wf = true) {a : Nat} (ha : a < b.len) (x : Byte) :
    Buffer.wf { b with cells := b.cells.write a x } = true := by
  simp only [Buffer.wf, Bool.and_eq_true, List.all_eq_true, decide_eq_true_eq] at h ⊢
  refine ⟨⟨h.1.1, Memory.wf_write h.1.2 _ _⟩, fun c hc => ?_⟩
  rcases Memory.mem_write hc with hc | hc
  · omega
  · exact h.2 c hc

/-! ### StoreWrite -/

/-- Everything StoreWrite does inside its domain. -/
theorem storeWrite_spec {s : State} {d : Byte} {b : Buffer} (hb : s.buffer? d = some b) {a : Nat} (ha : a < b.len)
    (x : Byte) :
    storeWrite d a x s = .ok (s.setBuffer d { b with cells := b.cells.write a x }) ∧
    (∀ d' a', (s.setBuffer d { b with cells := b.cells.write a x }).byte? d' a' =
      if d' = d ∧ a' = a then some x else s.byte? d' a') := by
  refine ⟨by simp [storeWrite, hb, ha], fun d' a' => ?_⟩
  rw [setBuffer_byte?]
  by_cases hd : d' = d
  · by_cases haa : a' = a
    · simp [hd, haa, ha, Memory.read_write]
    · simp [hd, haa, byte?_of_buffer hb, Memory.read_write]
  · simp [hd]

/-! ### Growth -/

theorem legalLen_iff (n : Nat) : legalLen n = true ↔ n % 4096 = 0 ∧ 4096 ≤ n ∧ n ≤ 65536 := by
  simp [legalLen]

theorem growLoop_ge (n req cand : Nat) : cand ≤ growLoop n req cand := by
  induction n generalizing cand with
  | zero => exact le_refl _
  | succ n ih =>
    simp only [growLoop]
    split_ifs
    · exact le_trans (Nat.le_add_right _ _) (ih _)
    · exact le_refl _

/-- From a multiple of 4096 up to 65536, enough passes of the growth loop give the first multiple of 4096 that covers the
required size, at most 65536 (42_register_store.md R131). -/
theorem growLoop_eq (n req k : Nat) (hk : k ≤ 16) (hn : 16 ≤ k + n) :
    growLoop n req (4096 * k) = max (4096 * k) (min 65536 (4096 * ((req + 4095) / 4096))) := by
  induction n generalizing k with
  | zero =>
    have hk16 : k = 16 := by omega
    subst hk16
    simp only [growLoop]
    omega
  | succ n ih =>
    simp only [growLoop, Config.storeGrowLimit, Config.storeIncrement]
    by_cases h : req > 4096 * k ∧ 4096 * k < 65535
    · have hstep : 4096 * k + 4096 = 4096 * (k + 1) := by ring
      rw [if_pos h, hstep, ih (k + 1) (by omega) (by omega)]
      omega
    · rw [if_neg h]
      omega

/-- The length Extend gives, in closed form, from a legal length or none (R131). -/
theorem extendedLen_eq (old : Option Nat) (req : Nat) (h : ∀ n, old = some n → legalLen n = true) :
    extendedLen old req = max (max (old.getD 0) 4096) (min 65536 (4096 * ((req + 4095) / 4096))) := by
  cases old with
  | none =>
    have := growLoop_eq growPasses req 0 (by omega) (by decide)
    simp only [Nat.mul_zero] at this
    simp only [extendedLen, this, Config.storeIncrement, Option.getD_none]
    omega
  | some n =>
    obtain ⟨hm, hlo, hhi⟩ := (legalLen_iff n).mp (h n rfl)
    obtain ⟨k, rfl⟩ : ∃ k, n = 4096 * k := ⟨n / 4096, by omega⟩
    have := growLoop_eq growPasses req k (by omega) (by simp [growPasses])
    simp only [extendedLen, this, Option.getD_some]
    omega

theorem extendedLen_legal (old : Option Nat) (req : Nat) (h : ∀ n, old = some n → legalLen n = true) :
    legalLen (extendedLen old req) = true := by
  rw [extendedLen_eq old req h]
  have hold : old.getD 0 % 4096 = 0 ∧ old.getD 0 ≤ 65536 := by
    cases old with
    | none => simp
    | some n =>
      have := (legalLen_iff n).mp (h n rfl)
      exact ⟨this.1, this.2.2⟩
  rw [legalLen_iff]
  omega

/-- Everything Extend does, whatever the state: the device's length, its old bytes kept, the new ones 0, every other device as
before (42_register_store.md R124). -/
theorem extend_spec (d : Byte) (req : Nat) (s : State) :
    extend d req s = { s with store := (extend d req s).store } ∧
    (extend d req s).len d = extendedLen ((s.buffer? d).map (·.len)) req ∧
    (∀ d', (extend d req s).alloc d' = (decide (d' = d) || s.alloc d')) ∧
    (∀ d', d' ≠ d → (extend d req s).buffer? d' = s.buffer? d') ∧
    (∀ a, (extend d req s).byte? d a =
      if a < s.len d then s.byte? d a else if a < (extend d req s).len d then some 0 else none) := by
  cases hb : s.buffer? d with
  | none =>
    have he : extend d req s = s.setBuffer d { len := extendedLen none req, cells := [] } := by simp [extend, hb]
    have hlen : (extend d req s).len d = extendedLen none req := by simp [he, State.len, buffer?_setBuffer]
    refine ⟨by rw [he]; rfl, by simpa using hlen, fun d' => ?_, fun d' hd => by simp [he, buffer?_setBuffer, hd],
      fun a => ?_⟩
    · by_cases hd : d' = d <;> simp [he, State.alloc, buffer?_setBuffer, hd]
    · rw [hlen, he, setBuffer_byte?]
      simp [len_of_unknown hb, Memory.read, lookup, unlistedByte]
  | some b =>
    by_cases hg : extendedLen (some b.len) req > b.len
    · have he : extend d req s = s.setBuffer d { len := extendedLen (some b.len) req, cells := b.cells.below b.len } := by
        simp [extend, hb, hg]
      have hlen : (extend d req s).len d = extendedLen (some b.len) req := by simp [he, State.len, buffer?_setBuffer]
      refine ⟨by rw [he]; rfl, by simpa using hlen, fun d' => ?_, fun d' hd => by simp [he, buffer?_setBuffer, hd],
        fun a => ?_⟩
      · by_cases hd : d' = d <;> simp [he, State.alloc, buffer?_setBuffer, hd]
      · rw [hlen, he, setBuffer_byte?, len_of_buffer hb, byte?_of_buffer hb]
        by_cases ha : a < b.len
        · simp [ha, Memory.read_below, lt_trans ha hg]
        · simp [ha, Memory.read_below, unlistedByte]
    · have he : extend d req s = s := by simp [extend, hb, hg]
      have hge : b.len ≤ extendedLen (some b.len) req := growLoop_ge _ _ _
      refine ⟨by rw [he], ?_, fun d' => ?_, fun d' _ => by rw [he], fun a => ?_⟩
      · rw [he, len_of_buffer hb, Option.map_some]
        omega
      · by_cases hd : d' = d
        · simp [he, hd, State.alloc, hb]
        · simp [he, hd]
      · rw [he]
        by_cases ha : a < s.len d
        · simp [ha]
        · simp only [ha, if_false]
          rw [byte?_of_buffer hb, ← len_of_buffer hb]
          simp [ha]

/-- A device Extend has run on is known. -/
theorem extend_alloc_self (d : Byte) (req : Nat) (s : State) : (extend d req s).alloc d = true := by
  simp [(extend_spec d req s).2.2.1]

/-- Extend never shrinks a buffer. -/
theorem extend_len_ge (d : Byte) (req : Nat) (s : State) (d' : Byte) : s.len d' ≤ (extend d req s).len d' := by
  by_cases hd : d' = d
  · subst hd
    rw [(extend_spec d' req s).2.1]
    cases hb : s.buffer? d' with
    | none => simp [len_of_unknown hb]
    | some b =>
      rw [len_of_buffer hb]
      exact growLoop_ge _ _ _
  · simp [State.len, (extend_spec d req s).2.2.2.1 d' hd]

/-- Extend keeps the store's canonical form. -/
theorem Store.wf_extend {s : State} (h : Store.wf s.store = true) (d : Byte) (req : Nat) :
    Store.wf (extend d req s).store = true := by
  cases hb : s.buffer? d with
  | none =>
    have hl : legalLen (extendedLen none req) = true := extendedLen_legal none req (by simp)
    have he : extend d req s = s.setBuffer d { len := extendedLen none req, cells := [] } := by simp [extend, hb]
    rw [he]
    exact Store.wf_setBuffer h d (by simp [Buffer.wf, hl, Memory.wf, rising])
  | some b =>
    have hbw := Store.wf_buffer h hb
    simp only [Buffer.wf, Bool.and_eq_true] at hbw
    by_cases hg : extendedLen (some b.len) req > b.len
    · have he : extend d req s = s.setBuffer d { len := extendedLen (some b.len) req, cells := b.cells.below b.len } := by
        simp [extend, hb, hg]
      have hl : legalLen (extendedLen (some b.len) req) = true :=
        extendedLen_legal _ req fun n hn => by
          cases hn
          exact hbw.1.1
      rw [he]
      refine Store.wf_setBuffer h d ?_
      simp only [Buffer.wf, hl, Memory.wf_below hbw.1.2, Bool.true_and, List.all_eq_true, decide_eq_true_eq]
      intro c hc
      have := List.of_mem_filter hc
      simp only [decide_eq_true_eq] at this
      omega
    · have he : extend d req s = s := by simp [extend, hb, hg]
      rw [he]
      exact h

/-! ### The response write -/

/-- Everything the write loop does on an allocated device when its bound is at most the device's length: it completes, touches
the store alone, keeps every length, and writes exactly the bytes whose offset is below the bound. -/
theorem writeBelow_spec (d : Byte) (L : Nat) (xs : Window) (a : Nat) (s : State) (b : Buffer)
    (hb : s.buffer? d = some b) (hL : L ≤ b.len) :
    ∃ s', writeBelow d L a xs s = .ok s' ∧
      s' = { s with store := s'.store } ∧
      (∀ d', s'.alloc d' = s.alloc d') ∧
      (∀ d', s'.len d' = s.len d') ∧
      (∀ d', d' ≠ d → s'.buffer? d' = s.buffer? d') ∧
      (∀ a', s'.byte? d a' = if a ≤ a' ∧ a' < a + xs.length ∧ a' < L then xs[a' - a]? else s.byte? d a') ∧
      (Store.wf s.store = true → Store.wf s'.store = true) := by
  induction xs generalizing a s b with
  | nil =>
    refine ⟨s, rfl, rfl, fun _ => rfl, fun _ => rfl, fun _ _ => rfl, fun a' => ?_, id⟩
    have : ¬(a ≤ a' ∧ a' < a + ([] : Window).length ∧ a' < L) := by
      simp only [List.length_nil]
      omega
    rw [if_neg this]
  | cons x xs ih =>
    by_cases ha : a < L
    · have hab : a < b.len := lt_of_lt_of_le ha hL
      obtain ⟨hw, hbyte⟩ := storeWrite_spec hb hab x
      set s₁ := s.setBuffer d { b with cells := b.cells.write a x } with hs₁
      have hb₁ : s₁.buffer? d = some { b with cells := b.cells.write a x } := by simp [hs₁, buffer?_setBuffer]
      obtain ⟨s', hrun, hframe, halloc, hlen, hother, hread, hwf⟩ := ih (a + 1) s₁ _ hb₁ hL
      refine ⟨s', ?_, ?_, fun d' => ?_, fun d' => ?_, fun d' hd => ?_, fun a' => ?_, fun h => ?_⟩
      · simp [writeBelow, ha, hw, hrun]
      · rw [hframe, hs₁]
        rfl
      · rw [halloc]
        by_cases hd : d' = d
        · subst hd
          simp [State.alloc, hb, hb₁]
        · simp [hs₁, State.alloc, buffer?_setBuffer, hd]
      · rw [hlen]
        by_cases hd : d' = d
        · subst hd
          simp [State.len, hb, hb₁]
        · simp [hs₁, State.len, buffer?_setBuffer, hd]
      · rw [hother d' hd, hs₁, buffer?_setBuffer, if_neg hd]
      · rw [hread, hbyte]
        by_cases haa : a' = a
        · subst haa
          simp [ha]
        · by_cases hin : a + 1 ≤ a' ∧ a' < a + 1 + xs.length ∧ a' < L
          · have hin' : a ≤ a' ∧ a' < a + (x :: xs).length ∧ a' < L := by
              simp only [List.length_cons]
              omega
            have hidx : a' - a = (a' - (a + 1)) + 1 := by omega
            rw [if_pos hin, if_pos hin', hidx, List.getElem?_cons_succ]
          · have hin' : ¬(a ≤ a' ∧ a' < a + (x :: xs).length ∧ a' < L) := by
              simp only [List.length_cons]
              omega
            rw [if_neg hin, if_neg hin']
            simp [haa]
      · exact hwf (Store.wf_setBuffer h d (Buffer.wf_write (Store.wf_buffer h hb) hab x))
    · obtain ⟨s', hrun, hframe, halloc, hlen, hother, hread, hwf⟩ := ih (a + 1) s b hb hL
      refine ⟨s', ?_, hframe, halloc, hlen, hother, fun a' => ?_, hwf⟩
      · simp [writeBelow, ha, hrun]
      · rw [hread, if_neg (by omega), if_neg (by omega)]

/-- Everything WriteClipped does on an allocated device (42_register_store.md R126). -/
theorem writeClipped_spec (d : Byte) (base : Nat) (x : Window) (s : State) (h : s.alloc d = true) :
    ∃ s', writeClipped d base x s = .ok s' ∧
      s' = { s with
        store := s'.store
        out := { s.out with
          evt := s.out.evt ++ (if droppedCount base x.length (s.len d) > 0 then
            [.storeClipped d (max base (s.len d)) (droppedCount base x.length (s.len d))] else []) } } ∧
      (∀ d', s'.alloc d' = s.alloc d') ∧
      (∀ d', s'.len d' = s.len d') ∧
      (∀ d', d' ≠ d → s'.buffer? d' = s.buffer? d') ∧
      (∀ a, s'.byte? d a = if base ≤ a ∧ a < base + x.length ∧ a < s.len d then x[a - base]? else s.byte? d a) ∧
      (Store.wf s.store = true → Store.wf s'.store = true) := by
  obtain ⟨b, hb⟩ : ∃ b, s.buffer? d = some b := Option.isSome_iff_exists.mp h
  obtain ⟨s₁, hrun, hframe, halloc, hlen, hother, hread, hwf⟩ :=
    writeBelow_spec d (s.len d) x base s b hb (le_of_eq (len_of_buffer hb))
  have hout : s₁.out = s.out := by rw [hframe]
  refine ⟨s₁.emitIf (decide (droppedCount base x.length (s.len d) > 0)) (.storeClipped d (max base (s.len d))
    (droppedCount base x.length (s.len d))), ?_, ?_, fun d' => ?_, fun d' => ?_, fun d' hd => ?_, fun a => ?_, fun hw => ?_⟩
  · simp [writeClipped, hrun]
  · rw [State.emitIf_store]
    by_cases hc : droppedCount base x.length (s.len d) > 0
    · simp only [hc, decide_true, State.emitIf, if_true, State.emit, hout]
      rw [hframe]
    · simp only [hc, decide_false, State.emitIf, if_false, Bool.false_eq_true, List.append_nil]
      exact hframe
  · rw [State.alloc_congr (State.emitIf_store _ _ _), halloc]
  · rw [State.len_congr (State.emitIf_store _ _ _), hlen]
  · rw [State.buffer?_congr (State.emitIf_store _ _ _), hother d' hd]
  · rw [State.byte?_congr (State.emitIf_store _ _ _), hread]
  · rw [State.emitIf_store]
    exact hwf hw

/-! ### Reset -/

/-- The store at reset is in canonical form. -/
theorem Store.wf_reset : Store.wf State.reset.store = true := rfl

end Sys2Proof.Machine
end

