-- ==== Sys2Proof/Laws/Accessors.lean ====
section
/-! SUPPORT. What the accessors' shared operations do: a read inside the buffer answers its bytes, any other is absent, and
neither ever faults (43_accessors.md R132 to R134). -/

namespace Sys2Proof.Machine

/-- A read is in range exactly when its last byte is present. -/
theorem inRange_iff (s : State) (d : Byte) (idx : Half) (k : Nat) :
    s.inRange d idx (k + 1) = true ↔ (s.byte? d (registerOffset idx + k)).isSome = true := by
  rw [byte?_isSome, decide_eq_true_eq]
  unfold State.inRange
  cases h : s.buffer? d with
  | none => simp [State.alloc, h, len_of_unknown h]
  | some b =>
    simp only [State.alloc, h, Option.isSome_some, Bool.true_and, decide_eq_true_eq]
    omega

/-- The bytes of an in-range read are all present. -/
theorem byte?_of_inRange {s : State} {d : Byte} {idx : Half} {n k : Nat} (h : s.inRange d idx n = true) (hk : k < n) :
    ∃ b, s.byte? d (registerOffset idx + k) = some b := by
  unfold State.inRange at h
  simp only [Bool.and_eq_true, decide_eq_true_eq] at h
  refine Option.isSome_iff_exists.mp ?_
  rw [byte?_isSome, decide_eq_true_eq]
  omega

theorem access2_present {s : State} {d : Byte} {idx : Half} {b0 b1 : Byte} (f : Byte → Byte → Word)
    (h0 : s.byte? d (registerOffset idx) = some b0) (h1 : s.byte? d (registerOffset idx + 1) = some b1) :
    access2 f d idx s = .ok { s with out := presentPorts (f b0 b1) } := by
  have hr : s.inRange d idx 2 = true := (inRange_iff s d idx 1).mpr (by simp [h1])
  simp [access2, fetch2, hr, storeRead_eq, h0, h1, readPorts, bind, Except.bind, pure, Except.pure]

theorem access2_absent {s : State} {d : Byte} {idx : Half} (f : Byte → Byte → Word) (h : s.inRange d idx 2 = false) :
    access2 f d idx s = .ok { s with out := Ports.default } := by
  simp [access2, fetch2, h, readPorts, bind, Except.bind, pure, Except.pure]

theorem access4_present {s : State} {d : Byte} {idx : Half} {b0 b1 b2 b3 : Byte} (f : Byte → Byte → Byte → Byte → Word)
    (h0 : s.byte? d (registerOffset idx) = some b0) (h1 : s.byte? d (registerOffset idx + 1) = some b1)
    (h2 : s.byte? d (registerOffset idx + 2) = some b2) (h3 : s.byte? d (registerOffset idx + 3) = some b3) :
    access4 f d idx s = .ok { s with out := presentPorts (f b0 b1 b2 b3) } := by
  have hr : s.inRange d idx 4 = true := (inRange_iff s d idx 3).mpr (by simp [h3])
  simp [access4, fetch4, hr, storeRead_eq, h0, h1, h2, h3, readPorts, bind, Except.bind, pure, Except.pure]

theorem access4_absent {s : State} {d : Byte} {idx : Half} (f : Byte → Byte → Byte → Byte → Word)
    (h : s.inRange d idx 4 = false) : access4 f d idx s = .ok { s with out := Ports.default } := by
  simp [access4, fetch4, h, readPorts, bind, Except.bind, pure, Except.pure]

/-- An accessor of width 2 always completes and changes the result ports alone. -/
theorem access2_spec (f : Byte → Byte → Word) (d : Byte) (idx : Half) (s : State) :
    ∃ v : Option Word, access2 f d idx s = .ok { s with out := readPorts v } ∧ v.isSome = s.inRange d idx 2 := by
  by_cases h : s.inRange d idx 2
  · obtain ⟨b0, h0⟩ := byte?_of_inRange h (show 0 < 2 by omega)
    obtain ⟨b1, h1⟩ := byte?_of_inRange h (show 1 < 2 by omega)
    exact ⟨some (f b0 b1), access2_present f h0 h1, by simp [h]⟩
  · rw [Bool.not_eq_true] at h
    exact ⟨none, access2_absent f h, by simp [h]⟩

/-- An accessor of width 4 always completes and changes the result ports alone. -/
theorem access4_spec (f : Byte → Byte → Byte → Byte → Word) (d : Byte) (idx : Half) (s : State) :
    ∃ v : Option Word, access4 f d idx s = .ok { s with out := readPorts v } ∧ v.isSome = s.inRange d idx 4 := by
  by_cases h : s.inRange d idx 4
  · obtain ⟨b0, h0⟩ := byte?_of_inRange h (show 0 < 4 by omega)
    obtain ⟨b1, h1⟩ := byte?_of_inRange h (show 1 < 4 by omega)
    obtain ⟨b2, h2⟩ := byte?_of_inRange h (show 2 < 4 by omega)
    obtain ⟨b3, h3⟩ := byte?_of_inRange h (show 3 < 4 by omega)
    exact ⟨some (f b0 b1 b2 b3), access4_present f h0 h1 h2 h3, by simp [h]⟩
  · rw [Bool.not_eq_true] at h
    exact ⟨none, access4_absent f h, by simp [h]⟩

end Sys2Proof.Machine
end

