-- ==== Sys2Proof/Laws/Correlator.lean ====
section
/-! SUPPORT. What the correlator's operations do, one lemma each. -/

namespace Sys2Proof.Machine

/-! ### Frames of the operations that store nothing -/

@[simp] theorem checkRequestCrc_pend (q : RequestFrame) (s : State) : (checkRequestCrc q s).pend = s.pend := by
  simp [checkRequestCrc]

@[simp] theorem checkRequestCrc_out (q : RequestFrame) (s : State) : (checkRequestCrc q s).out =
    { s.out with evt := s.out.evt ++
      (if decide (crc16 q.head ≠ q.crc) then [.badCrcRequest q.dev (crc16 q.head) q.crc] else []) } := by
  simp only [checkRequestCrc, State.emitIf_out]

/-- Idle decoding stores nothing and touches no configuration (41_correlator.md R98 to R104). -/
theorem idleStep_frame (w : Window) (now : Nat) (s : State) :
    (idleStep w now s).store = s.store ∧ (idleStep w now s).cfg = s.cfg ∧ (idleStep w now s).order = s.order ∧
      (idleStep w now s).cmds = s.cmds := by
  unfold idleStep
  cases decodeIdle w <;>
    simp [idleEmpty, discardShort, discardNoise, capture, checkRequestCrc, idleException]

/-- A window that Idle decodes to other than a request leaves the pending request and the assembly buffer (R100, R103,
R104). -/
theorem idleStep_keeps_pend {w : Window} (now : Nat) (s : State) (h : ∀ q rest, decodeIdle w ≠ .request q rest) :
    (idleStep w now s).pend = s.pend ∧ (idleStep w now s).asm = s.asm := by
  unfold idleStep
  cases hd : decodeIdle w with
  | request q rest => exact absurd hd (h q rest)
  | empty => simp [idleEmpty]
  | short dev rest => simp [discardShort]
  | exception e rest => simp [idleException]
  | noise dev fc rest => simp [discardNoise]

/-! ### Complete (R109 to R113) -/

/-- The events a completed response raises, in the order R164 lists them: BAD_CRC_RESPONSE, LENGTH_MISMATCH and STORE_CLIPPED
each only when its condition holds, RESPONSE_STORED always (60_exceptions.md R164; 41_correlator.md R110 to R113). `L` is the
length of the response's device buffer after growth. -/
def responseEvents (r : ResponseFrame) (s : State) (L : Nat) : List Event :=
  (if crc16 r.head = r.crc then [] else [.badCrcResponse r.dev (crc16 r.head) r.crc]) ++
  (if r.data.length = 2 * s.pend.count.toNat then []
    else [.lengthMismatch r.dev r.data.length (2 * s.pend.count.toNat)]) ++
  (if droppedCount (responseBase s) r.data.length L > 0 then
    [.storeClipped r.dev (max (responseBase s) L) (droppedCount (responseBase s) r.data.length L)] else []) ++
  [.responseStored r.dev (responseBase s) r.data.length]

/-- Everything a completed response does, whatever the state. -/
theorem complete_spec (r : ResponseFrame) (rest : Window) (s : State) :
    ∃ t, complete r rest s = .ok t ∧
      t = { s with
        pend := { s.pend with valid := false }
        asm := []
        store := t.store
        out := { s.out with rem := rest, evt := s.out.evt ++ responseEvents r s (t.len r.dev) } } ∧
      t.len r.dev = extendedLen ((s.buffer? r.dev).map (·.len)) (responseBase s + r.data.length + 1) ∧
      (∀ d, t.alloc d = (decide (d = r.dev) || s.alloc d)) ∧
      (∀ d, d ≠ r.dev → t.buffer? d = s.buffer? d) ∧
      (∀ a, t.byte? r.dev a =
        if responseBase s ≤ a ∧ a < responseBase s + r.data.length ∧ a < t.len r.dev then r.data[a - responseBase s]?
        else if a < s.len r.dev then s.byte? r.dev a
        else if a < t.len r.dev then some 0 else none) ∧
      (Store.wf s.store = true → Store.wf t.store = true) := by
  set s₁ := checkLength r (checkResponseCrc r s) with hs₁
  have hpend : s₁.pend = s.pend := by simp [hs₁, checkLength, checkResponseCrc]
  have hstore : s₁.store = s.store := by simp [hs₁, checkLength, checkResponseCrc]
  have hbase : responseBase s₁ = responseBase s := by simp [responseBase, hpend]
  obtain ⟨hframe₂, hlen₂, halloc₂, hother₂, hbyte₂⟩ := extend_spec r.dev (responseBase s + r.data.length + 1) s₁
  set s₂ := extend r.dev (responseBase s + r.data.length + 1) s₁ with hs₂
  obtain ⟨s₃, hrun, hframe₃, halloc₃, hlen₃, hother₃, hbyte₃, hwf₃⟩ :=
    writeClipped_spec r.dev (responseBase s) r.data s₂ (extend_alloc_self _ _ _)
  have hbase₃ : responseBase s₃ = responseBase s := by
    simp only [responseBase] at hbase ⊢
    rw [hframe₃, hframe₂, hpend]
  have hlen : s₃.len r.dev = s₂.len r.dev := hlen₃ _
  have htstore : ((finishResponse r s₃).setRem rest).store = s₃.store := by simp [finishResponse]
  refine ⟨(finishResponse r s₃).setRem rest, ?_, ?_, ?_, fun d => ?_, fun d hd => ?_, fun a => ?_, fun h => ?_⟩
  · simp only [complete, writeResponse, ← hs₁, hbase, ← hs₂, hrun]
  · rw [State.len_congr htstore, hlen, htstore]
    have hout₁ : s₁.out = { s.out with evt := s.out.evt ++
        ((if crc16 r.head = r.crc then [] else [Event.badCrcResponse r.dev (crc16 r.head) r.crc]) ++
        (if r.data.length = 2 * s.pend.count.toNat then []
          else [Event.lengthMismatch r.dev r.data.length (2 * s.pend.count.toNat)])) } := by
      simp only [hs₁, checkLength, checkResponseCrc, State.emitIf_out, State.emitIf_pend]
      by_cases h₁ : crc16 r.head = r.crc <;> by_cases h₂ : r.data.length = 2 * s.pend.count.toNat <;> simp [h₁, h₂]
    have hasm : s₁.asm = s.asm := by simp [hs₁, checkLength, checkResponseCrc]
    have hcfg : s₁.cfg = s.cfg := by simp [hs₁, checkLength, checkResponseCrc]
    have horder : s₁.order = s.order := by simp [hs₁, checkLength, checkResponseCrc]
    have hcmds : s₁.cmds = s.cmds := by simp [hs₁, checkLength, checkResponseCrc]
    have hs₃pend : s₃.pend = s.pend := by rw [hframe₃, hframe₂]; exact hpend
    have hs₃cfg : s₃.cfg = s.cfg := by rw [hframe₃, hframe₂]; exact hcfg
    have hs₃order : s₃.order = s.order := by rw [hframe₃, hframe₂]; exact horder
    have hs₃cmds : s₃.cmds = s.cmds := by rw [hframe₃, hframe₂]; exact hcmds
    have hs₃out : s₃.out = { s.out with evt := s.out.evt ++
        ((if crc16 r.head = r.crc then [] else [Event.badCrcResponse r.dev (crc16 r.head) r.crc]) ++
        (if r.data.length = 2 * s.pend.count.toNat then []
          else [Event.lengthMismatch r.dev r.data.length (2 * s.pend.count.toNat)])) ++
        (if droppedCount (responseBase s) r.data.length (s₂.len r.dev) > 0 then
          [.storeClipped r.dev (max (responseBase s) (s₂.len r.dev))
            (droppedCount (responseBase s) r.data.length (s₂.len r.dev))] else []) } := by
      have hs₂out : s₂.out = s₁.out := by rw [hframe₂]
      rw [hframe₃, hs₂out, hout₁]
    simp only [finishResponse, State.setRem, State.toIdle, State.emit, hbase₃, hs₃pend, hs₃cfg, hs₃order, hs₃cmds,
      hs₃out, responseEvents, List.append_assoc]
  · rw [State.len_congr htstore, hlen, hlen₂, State.buffer?_congr hstore]
  · rw [State.alloc_congr htstore, halloc₃, halloc₂, State.alloc_congr hstore]
  · rw [State.buffer?_congr htstore, hother₃ d hd, hother₂ d hd, State.buffer?_congr hstore]
  · rw [State.byte?_congr htstore, State.len_congr htstore, hlen, hbyte₃, hbyte₂, State.len_congr hstore,
      State.byte?_congr hstore]
  · rw [htstore]
    refine hwf₃ (Store.wf_extend ?_ _ _)
    rw [hstore]
    exact h

/-! ### One correlator call (R97) -/

/-- The three ways a STEP goes: timed out and decoded in Idle, decoded in AwaitingResponse, decoded in Idle. -/
theorem correlate_cases (w : Window) (now : Nat) (s : State) :
    (s.timedOut now = true ∧ correlate w now s = .ok (idleStep w now s.clearOut.timeout)) ∨
    (s.timedOut now = false ∧ s.pend.valid = true ∧ correlate w now s = awaitStep w s.clearOut) ∨
    (s.timedOut now = false ∧ s.pend.valid = false ∧ correlate w now s = .ok (idleStep w now s.clearOut)) := by
  unfold correlate
  by_cases h : s.timedOut now
  · simp [h]
  · by_cases hv : s.pend.valid <;> simp [h, hv]

/-- What AwaitStep does, by the class of the assembly buffer with the window appended (R105). -/
theorem awaitStep_cases (w : Window) (s : State) :
    (∃ a, (decodeAwait (s.asm ++ w) = .holdShort a ∨ decodeAwait (s.asm ++ w) = .holdIncomplete a) ∧
      awaitStep w s = .ok (hold a s)) ∨
    (∃ e rest, decodeAwait (s.asm ++ w) = .exception e rest ∧ awaitStep w s = .ok (awaitException e rest s)) ∨
    (∃ r rest, decodeAwait (s.asm ++ w) = .response r rest ∧ awaitStep w s = complete r rest s) := by
  unfold awaitStep
  cases h : decodeAwait (s.asm ++ w) with
  | holdShort a => exact .inl ⟨a, .inl rfl, rfl⟩
  | holdIncomplete a => exact .inl ⟨a, .inr rfl, rfl⟩
  | exception e rest => exact .inr (.inl ⟨e, rest, rfl, rfl⟩)
  | response r rest => exact .inr (.inr ⟨r, rest, rfl, rfl⟩)

/-- A STEP always completes. -/
theorem correlate_ok (w : Window) (now : Nat) (s : State) : ∃ t, correlate w now s = .ok t := by
  rcases correlate_cases w now s with ⟨_, h⟩ | ⟨_, _, h⟩ | ⟨_, _, h⟩
  · exact ⟨_, h⟩
  · rw [h]
    rcases awaitStep_cases w s.clearOut with ⟨a, _, h⟩ | ⟨e, rest, _, h⟩ | ⟨r, rest, _, h⟩
    · exact ⟨_, h⟩
    · exact ⟨_, h⟩
    · obtain ⟨t, ht, _⟩ := complete_spec r rest s.clearOut
      exact ⟨t, h.trans ht⟩
  · exact ⟨_, h⟩

end Sys2Proof.Machine
end

