-- ==== Sys2Proof/Laws/Decode.lean ====
section
/-! SUPPORT. The small lemmas of the byte-order helpers, the command word's fields and the frame layouts. -/

namespace Sys2Proof

/-! ### Fields of concatenated words -/

theorem extract_low {m n : Nat} (x : BitVec m) (y : BitVec n) (k len : Nat) (h : k + len ≤ n) :
    (x ++ y).extractLsb' k len = y.extractLsb' k len := by
  ext i hi
  simp only [BitVec.getElem_extractLsb', BitVec.getLsbD_append]
  have : k + i < n := by omega
  simp [this]

theorem extract_high {m n : Nat} (x : BitVec m) (y : BitVec n) (k len : Nat) :
    (x ++ y).extractLsb' (n + k) len = x.extractLsb' k len := by
  ext i hi
  simp only [BitVec.getElem_extractLsb', BitVec.getLsbD_append]
  have h1 : ¬ n + k + i < n := by omega
  have h2 : n + k + i - n = k + i := by omega
  simp [h1, h2]

/-! ### Byte order -/

theorem half_ext {x y : Half} (hlo : loByte x = loByte y) (hhi : hiByte x = hiByte y) : x = y := by
  apply BitVec.eq_of_getElem_eq
  intro i hi
  by_cases h : i < 8
  · have := congrArg (fun b : Byte => b.getLsbD i) hlo
    simpa [loByte, h, BitVec.getLsbD_eq_getElem hi] using this
  · have := congrArg (fun b : Byte => b.getLsbD (i - 8)) hhi
    have h8 : i - 8 < 8 := by omega
    have hadd : 8 + (i - 8) = i := by omega
    simpa [hiByte, h8, hadd, BitVec.getLsbD_eq_getElem hi] using this

@[simp] theorem loByte_be16 (b0 b1 : Byte) : loByte (be16 b0 b1) = b1 := by
  rw [loByte, be16, extract_low _ _ _ _ (by omega), BitVec.extractLsb'_eq_self]

@[simp] theorem hiByte_be16 (b0 b1 : Byte) : hiByte (be16 b0 b1) = b0 := by
  rw [hiByte, be16, extract_high b0 b1 0 8, BitVec.extractLsb'_eq_self]

@[simp] theorem loByte_le16 (b0 b1 : Byte) : loByte (le16 b0 b1) = b0 := loByte_be16 b1 b0

@[simp] theorem hiByte_le16 (b0 b1 : Byte) : hiByte (le16 b0 b1) = b1 := hiByte_be16 b1 b0

@[simp] theorem be16_hiByte_loByte (h : Half) : be16 (hiByte h) (loByte h) = h := half_ext (by simp) (by simp)

@[simp] theorem le16_loByte_hiByte (h : Half) : le16 (loByte h) (hiByte h) = h := half_ext (by simp) (by simp)

/-! ### The command word -/

theorem op_commandWord (op dev : Byte) (idx : Half) (arg : Word) (win : Window) (now : Nat) :
    Command.op ⟨commandWord op dev idx arg, win, now⟩ = op := by
  rw [Command.op, commandWord, extract_low _ _ _ _ (by omega), extract_low _ _ _ _ (by omega),
    extract_low _ _ _ _ (by omega), BitVec.extractLsb'_eq_self]

theorem dev_commandWord (op dev : Byte) (idx : Half) (arg : Word) (win : Window) (now : Nat) :
    Command.dev ⟨commandWord op dev idx arg, win, now⟩ = dev := by
  rw [Command.dev, commandWord, extract_low _ _ _ _ (by omega), extract_low _ _ _ _ (by omega),
    extract_high dev op 0 8, BitVec.extractLsb'_eq_self]

theorem idx_commandWord (op dev : Byte) (idx : Half) (arg : Word) (win : Window) (now : Nat) :
    Command.idx ⟨commandWord op dev idx arg, win, now⟩ = idx := by
  rw [Command.idx, commandWord, extract_low _ _ _ _ (by omega), extract_high idx (dev ++ op) 0 16,
    BitVec.extractLsb'_eq_self]

theorem arg_commandWord (op dev : Byte) (idx : Half) (arg : Word) (win : Window) (now : Nat) :
    Command.arg ⟨commandWord op dev idx arg, win, now⟩ = arg := by
  rw [Command.arg, commandWord, extract_high arg (idx ++ (dev ++ op)) 0 32, BitVec.extractLsb'_eq_self]

/-! ### Frame lengths (00_scope.md R7) -/

theorem RequestFrame.bytes_length (q : RequestFrame) : q.bytes.length = 8 := rfl

theorem ExceptionFrame.bytes_length (e : ExceptionFrame) : e.bytes.length = 5 := rfl

theorem ResponseFrame.bytes_length (r : ResponseFrame) : r.bytes.length = r.data.length + 5 := by
  simp [ResponseFrame.bytes, ResponseFrame.head]

/-! ### What the decoders answer -/

/-- The exception test as a number (30_encoding.md R71, R72: 0x81..0xFF). -/
theorem isExceptionCode_iff (fc : Byte) : isExceptionCode fc = true ↔ 0x81 ≤ fc.toNat := by
  have hlt : fc > 0x80 ↔ 0x80 < fc.toNat := by simp [BitVec.lt_def]
  rw [isExceptionCode, decide_eq_true_eq, hlt]
  omega

/-- What a command word decodes to: a command of R78 with its operands, or an unassigned opcode. -/
theorem decodeCommand_cases (c : Command) (P : Instr → Prop)
    (hstep : P (.step c.win c.now)) (hread : P (.read c.win c.now)) (hcrc16 : P (.crc16 c.win))
    (hextend : P (.extend c.dev c.arg)) (hgetf32 : P (.getf32 c.dev c.idx)) (hgeti16 : P (.geti16 c.dev c.idx))
    (hgetu16 : P (.getu16 c.dev c.idx)) (hgeti32 : P (.geti32 c.dev c.idx)) (hgetu32 : P (.getu32 c.dev c.idx))
    (hdump : P (.dump c.dev)) (hcfgw : P (.cfgw c.idx c.arg)) (hcfgr : P (.cfgr c.idx)) (hreset : P .reset)
    (hillegal : c.op ∉ assignedOpcodes → P (.illegal c.op)) : P (decodeCommand c) := by
  unfold decodeCommand
  refine iteInduction (fun _ => hstep) fun h₁ => ?_
  refine iteInduction (fun _ => hread) fun h₂ => ?_
  refine iteInduction (fun _ => hcrc16) fun h₃ => ?_
  refine iteInduction (fun _ => hextend) fun h₄ => ?_
  refine iteInduction (fun _ => hgetf32) fun h₅ => ?_
  refine iteInduction (fun _ => hgeti16) fun h₆ => ?_
  refine iteInduction (fun _ => hgetu16) fun h₇ => ?_
  refine iteInduction (fun _ => hgeti32) fun h₈ => ?_
  refine iteInduction (fun _ => hgetu32) fun h₉ => ?_
  refine iteInduction (fun _ => hdump) fun h₁₀ => ?_
  refine iteInduction (fun _ => hcfgw) fun h₁₁ => ?_
  refine iteInduction (fun _ => hcfgr) fun h₁₂ => ?_
  refine iteInduction (fun _ => hreset) fun h₁₃ => ?_
  refine hillegal fun hm => ?_
  simp only [assignedOpcodes, List.mem_cons, List.not_mem_nil, or_false] at hm
  rcases hm with h | h | h | h | h | h | h | h | h | h | h | h | h <;> contradiction

theorem decodeIdle_of_ne {fc : Byte} (h : fc ≠ 0x04) (dev b2 b3 b4 : Byte) (rest : Window) :
    decodeIdle (dev :: fc :: b2 :: b3 :: b4 :: rest) =
      if isExceptionCode fc then .exception ⟨dev, fc, b2, le16 b3 b4⟩ rest
      else .noise dev fc (b2 :: b3 :: b4 :: rest) := by
  simp only [decodeIdle, if_neg h]

/-- What a window decodes to in Idle, with the bytes it was read from (R71). -/
theorem decodeIdle_cases (w : Window) :
    (w = [] ∧ decodeIdle w = .empty) ∨
    (∃ dev rest, w = dev :: rest ∧ rest.length ≤ 3 ∧ decodeIdle w = .short dev rest) ∨
    (∃ q rest, w = RequestFrame.bytes q ++ rest ∧ decodeIdle w = .request q rest) ∨
    (∃ e rest, w = ExceptionFrame.bytes e ++ rest ∧ isExceptionCode e.fc = true ∧ decodeIdle w = .exception e rest) ∨
    (∃ dev fc rest, w = dev :: fc :: rest ∧ 3 ≤ rest.length ∧ isExceptionCode fc = false ∧
      (fc = 0x04 → rest.length ≤ 5) ∧ decodeIdle w = .noise dev fc rest) := by
  match w with
  | [] => exact .inl ⟨rfl, rfl⟩
  | [b0] => exact .inr (.inl ⟨b0, [], rfl, by simp, rfl⟩)
  | [b0, b1] => exact .inr (.inl ⟨b0, [b1], rfl, by simp, rfl⟩)
  | [b0, b1, b2] => exact .inr (.inl ⟨b0, [b1, b2], rfl, by simp, rfl⟩)
  | [b0, b1, b2, b3] => exact .inr (.inl ⟨b0, [b1, b2, b3], rfl, by simp, rfl⟩)
  | dev :: fc :: b2 :: b3 :: b4 :: rest5 =>
    by_cases h4 : fc = 0x04
    · subst h4
      match rest5 with
      | [] => exact .inr (.inr (.inr (.inr ⟨dev, _, _, rfl, by simp, by decide, by simp, rfl⟩)))
      | [_] => exact .inr (.inr (.inr (.inr ⟨dev, _, _, rfl, by simp, by decide, by simp, rfl⟩)))
      | [_, _] => exact .inr (.inr (.inr (.inr ⟨dev, _, _, rfl, by simp, by decide, by simp, rfl⟩)))
      | b5 :: b6 :: b7 :: rest =>
        exact .inr (.inr (.inl ⟨⟨dev, be16 b2 b3, be16 b4 b5, le16 b6 b7⟩, rest,
          by simp [RequestFrame.bytes, RequestFrame.head], rfl⟩))
    · by_cases he : isExceptionCode fc
      · refine .inr (.inr (.inr (.inl ⟨⟨dev, fc, b2, le16 b3 b4⟩, rest5, by simp [ExceptionFrame.bytes], he, ?_⟩)))
        rw [decodeIdle_of_ne h4, if_pos he]
      · refine .inr (.inr (.inr (.inr
          ⟨dev, fc, _, rfl, by simp, by simpa using he, fun h => absurd h h4, ?_⟩)))
        rw [decodeIdle_of_ne h4, if_neg he]

/-- What an assembly buffer with the window appended decodes to, with the bytes it was read from (R72). -/
theorem decodeAwait_cases (a : Window) :
    (a.length ≤ 4 ∧ decodeAwait a = .holdShort a) ∨
    (∃ e rest, a = ExceptionFrame.bytes e ++ rest ∧ isExceptionCode e.fc = true ∧ decodeAwait a = .exception e rest) ∨
    (∃ dev fc bc rest, a = dev :: fc :: bc :: rest ∧ 2 ≤ rest.length ∧ isExceptionCode fc = false ∧
      rest.length < bc.toNat + 2 ∧ decodeAwait a = .holdIncomplete a) ∨
    (∃ r rest, a = ResponseFrame.bytes r ++ rest ∧ isExceptionCode r.fc = false ∧ r.data.length ≤ 255 ∧
      decodeAwait a = .response r rest) := by
  match a with
  | [] | [_] | [_, _] | [_, _, _] | [_, _, _, _] => exact .inl ⟨by simp, rfl⟩
  | dev :: fc :: bc :: b3 :: b4 :: rest5 =>
    by_cases he : isExceptionCode fc
    · exact .inr (.inl ⟨⟨dev, fc, bc, le16 b3 b4⟩, rest5, by simp [ExceptionFrame.bytes], he, by simp [decodeAwait, he]⟩)
    · have he' : isExceptionCode fc = false := by simpa using he
      match hdrop : (b3 :: b4 :: rest5).drop bc.toNat with
      | [] | [_] =>
        refine .inr (.inr (.inl ⟨dev, fc, bc, _, rfl, by simp, he', ?_, by simp only [decodeAwait, if_neg he, hdrop]⟩))
        have := congrArg List.length hdrop
        simp only [List.length_drop, List.length_cons, List.length_nil] at this ⊢
        omega
      | lo :: hi :: rest =>
        have hle : bc.toNat ≤ (b3 :: b4 :: rest5).length := by
          have := congrArg List.length hdrop
          simp only [List.length_drop, List.length_cons] at this ⊢
          omega
        have htake : ((b3 :: b4 :: rest5).take bc.toNat).length = bc.toNat := by
          rw [List.length_take]
          omega
        have hsplit := List.take_append_drop bc.toNat (b3 :: b4 :: rest5)
        rw [hdrop] at hsplit
        refine .inr (.inr (.inr ⟨⟨dev, fc, (b3 :: b4 :: rest5).take bc.toNat, le16 lo hi⟩, rest, ?_, he', ?_,
          by simp only [decodeAwait, if_neg he, hdrop]⟩))
        · simp only [ResponseFrame.bytes, ResponseFrame.head, htake]
          simp [hsplit]
        · have := bc.isLt
          simp only [htake]
          omega

end Sys2Proof
end

