-- ==== Sys2Proof/Laws/PerInstr.lean ====
section
/-! SUPPORT. Statements about every instruction as syntax, one lemma per constructor. UnusedFieldsZero: the encoder leaves every
field and port that 30_encoding.md R80 does not list for a command at zero, and only commands are encoded as command words. -/

namespace Sys2Proof.Laws.UnusedFieldsZero

/-- The columns of the table of R80. -/
structure Operands where
  dev : Bool
  idx : Bool
  arg : Bool
  win : Bool
  now : Bool
deriving DecidableEq, Repr

/-- The rows of the table of R80; an unassigned OP uses no operand, and a wire-frame class is not a command. -/
def operands : Instr → Operands
  | .step _ _ | .read _ _ => ⟨false, false, false, true, true⟩
  | .crc16 _ => ⟨false, false, false, true, false⟩
  | .extend _ _ => ⟨true, false, true, false, false⟩
  | .getf32 _ _ | .geti16 _ _ | .getu16 _ _ | .geti32 _ _ | .getu32 _ _ => ⟨true, true, false, false, false⟩
  | .dump _ => ⟨true, false, false, false, false⟩
  | .cfgw _ _ => ⟨false, true, true, false, false⟩
  | .cfgr _ => ⟨false, true, false, false, false⟩
  | .reset | .illegal _ => ⟨false, false, false, false, false⟩
  | .wEmpty | .wShort _ _ | .wRequest _ _ _ | .wExceptionIdle _ _ | .wNoise _ _ _ | .aHoldShort _ | .aException _ _
  | .aHoldIncomplete _ | .aResponse _ _ => ⟨false, false, false, false, false⟩

/-- The fields and ports of a command that its operands do not use are zero. -/
def fieldsZero (o : Operands) (c : Command) : Prop :=
  (o.dev = false → c.dev = 0) ∧ (o.idx = false → c.idx = 0) ∧ (o.arg = false → c.arg = 0) ∧
    (o.win = false → c.win = []) ∧ (o.now = false → c.now = 0)

def Statement (i : Instr) : Prop :=
  (∀ c, encode i = .command c → i.isCommand = true ∧ fieldsZero (operands i) c) ∧
    ((encode i).wire?.isSome = true ↔ i.isCommand = false)

/-- A command's statement, from its word. -/
theorem of_word {i : Instr} (op dev : Byte) (idx : Half) (arg : Word) (win : Window) (now : Nat)
    (he : encode i = .command ⟨commandWord op dev idx arg, win, now⟩) (hi : i.isCommand = true)
    (hz : ((operands i).dev = false → dev = 0) ∧ ((operands i).idx = false → idx = 0) ∧
      ((operands i).arg = false → arg = 0) ∧ ((operands i).win = false → win = []) ∧
      ((operands i).now = false → now = 0)) : Statement i := by
  refine ⟨fun c hc => ⟨hi, ?_⟩, by simp [he, hi, Code.wire?]⟩
  rw [he] at hc
  cases hc
  simpa only [fieldsZero, dev_commandWord, idx_commandWord, arg_commandWord] using hz

/-- A wire-frame class's statement. -/
theorem of_wire {i : Instr} {w : Window} (he : (encode i).wire? = some w) (hi : i.isCommand = false) : Statement i := by
  refine ⟨fun c hc => ?_, by simp [he, hi]⟩
  rw [hc] at he
  cases he

theorem step (win : Window) (now : Nat) : Statement (.step win now) :=
  of_word 0x01 0 0 0 win now rfl rfl (by simp [operands])

theorem read (win : Window) (now : Nat) : Statement (.read win now) :=
  of_word 0x02 0 0 0 win now rfl rfl (by simp [operands])

theorem crc16 (win : Window) : Statement (.crc16 win) := of_word 0x03 0 0 0 win 0 rfl rfl (by simp [operands])

theorem extend (dev : Byte) (size : Word) : Statement (.extend dev size) :=
  of_word 0x10 dev 0 size [] 0 rfl rfl (by simp [operands])

theorem getf32 (dev : Byte) (idx : Half) : Statement (.getf32 dev idx) :=
  of_word 0x20 dev idx 0 [] 0 rfl rfl (by simp [operands])

theorem geti16 (dev : Byte) (idx : Half) : Statement (.geti16 dev idx) :=
  of_word 0x21 dev idx 0 [] 0 rfl rfl (by simp [operands])

theorem getu16 (dev : Byte) (idx : Half) : Statement (.getu16 dev idx) :=
  of_word 0x22 dev idx 0 [] 0 rfl rfl (by simp [operands])

theorem geti32 (dev : Byte) (idx : Half) : Statement (.geti32 dev idx) :=
  of_word 0x23 dev idx 0 [] 0 rfl rfl (by simp [operands])

theorem getu32 (dev : Byte) (idx : Half) : Statement (.getu32 dev idx) :=
  of_word 0x24 dev idx 0 [] 0 rfl rfl (by simp [operands])

theorem dump (dev : Byte) : Statement (.dump dev) := of_word 0x28 dev 0 0 [] 0 rfl rfl (by simp [operands])

theorem cfgw (idx : Half) (value : Word) : Statement (.cfgw idx value) :=
  of_word 0x30 0 idx value [] 0 rfl rfl (by simp [operands])

theorem cfgr (idx : Half) : Statement (.cfgr idx) := of_word 0x31 0 idx 0 [] 0 rfl rfl (by simp [operands])

theorem reset : Statement .reset := of_word 0xFF 0 0 0 [] 0 rfl rfl (by simp)

theorem illegal (op : Byte) : Statement (.illegal op) := of_word op 0 0 0 [] 0 rfl rfl (by simp)

theorem wEmpty : Statement .wEmpty := of_wire rfl rfl

theorem wShort (dev : Byte) (rest : Window) : Statement (.wShort dev rest) := of_wire rfl rfl

theorem wRequest (frame : RequestFrame) (rest : Window) (now : Nat) : Statement (.wRequest frame rest now) :=
  of_wire rfl rfl

theorem wExceptionIdle (frame : ExceptionFrame) (rest : Window) : Statement (.wExceptionIdle frame rest) :=
  of_wire rfl rfl

theorem wNoise (dev fc : Byte) (rest : Window) : Statement (.wNoise dev fc rest) := of_wire rfl rfl

theorem aHoldShort (buf : Window) : Statement (.aHoldShort buf) := of_wire rfl rfl

theorem aException (frame : ExceptionFrame) (rest : Window) : Statement (.aException frame rest) := of_wire rfl rfl

theorem aHoldIncomplete (buf : Window) : Statement (.aHoldIncomplete buf) := of_wire rfl rfl

theorem aResponse (frame : ResponseFrame) (rest : Window) : Statement (.aResponse frame rest) := of_wire rfl rfl

end Sys2Proof.Laws.UnusedFieldsZero
end

