-- ==== Sys2Proof/Tests/Slice0.lean ====
section
/-! SUPPORT. The model's own tests. Expected values come from spec/95_test_vectors.md (computed there by hand from the rules)
and from the encoding tables of spec/30_encoding.md. The `witness_` theorems show, for each obligation with hypotheses, a concrete
state and operands that meet them. -/

namespace Sys2Proof.Tests

open Sys2Proof.Machine

/-! ### Small states -/

/-- The start state of 95_test_vectors.md: reset, then CFGW REQUEST_TIMEOUT, 100. -/
def idle : State := { State.reset with cfg := { reqTimeout := 100, debug := false } }

/-- REQ(1, 0, 2), RSP(1, 00 00 00 01) and EXC(1, 84, 02) of 95_test_vectors.md. -/
def req : Window := [0x01, 0x04, 0x00, 0x00, 0x00, 0x02, 0x71, 0xCB]
def rsp : Window := [0x01, 0x04, 0x04, 0x00, 0x00, 0x00, 0x01, 0x3A, 0x44]
def exc : Window := [0x01, 0x84, 0x02, 0xC2, 0xC1]

/-- A request of device 1 for the given registers, pending since time 0. -/
def awaiting (start count : Half) : State :=
  { idle with pend := ⟨true, 1, start, count, RequestFrame.bytes ⟨1, start, count, 0⟩, 0⟩ }

/-- A store in which one device holds the given bytes from an offset. -/
def holding (d : Byte) (len a : Nat) (bytes : Window) : State :=
  { idle with store := [(d.toNat, ⟨len, (bytes.zipIdx a).map fun c => (c.2, c.1)⟩)] }

/-- The next state, when there is one. -/
def next? : Host.Outcome State Fault Refusal → Option State
  | .next t => some t
  | .fault _ => none
  | .refused _ => none

/-- The result ports after an instruction. -/
def ports? (i : Instr) (s : State) : Option Ports := (next? (exec i s)).map (·.out)

/-- The ports an accessor of value `v` leaves. -/
def present (v : Word) : Option Ports := some { Ports.default with res := v, present := true }

/-! ### WellFormed: an ill-formed term for each check (30_encoding.md R71, R72, R79) -/

theorem test_wf_refuses_assigned_illegal : (Instr.illegal 0x22).wf = false := by decide
theorem test_wf_refuses_long_short : (Instr.wShort 1 [4, 0, 0, 0]).wf = false := by decide
theorem test_wf_refuses_code80_exception_idle : (Instr.wExceptionIdle ⟨1, 0x80, 2, 0⟩ []).wf = false := by decide
theorem test_wf_refuses_short_noise : (Instr.wNoise 1 3 [0, 0]).wf = false := by decide
theorem test_wf_refuses_exception_noise : (Instr.wNoise 1 0x81 [0, 0, 0]).wf = false := by decide
theorem test_wf_refuses_request_noise : (Instr.wNoise 1 4 [0, 0, 0, 1, 0, 0]).wf = false := by decide
theorem test_wf_refuses_five_byte_hold_short : (Instr.aHoldShort [1, 4, 4, 0, 0]).wf = false := by decide
theorem test_wf_refuses_code80_exception : (Instr.aException ⟨1, 0x80, 2, 0⟩ []).wf = false := by decide
theorem test_wf_refuses_short_hold_incomplete : (Instr.aHoldIncomplete [1, 4, 4, 0]).wf = false := by decide
theorem test_wf_refuses_exception_hold_incomplete : (Instr.aHoldIncomplete [1, 0x84, 4, 0, 0]).wf = false := by decide
theorem test_wf_refuses_complete_hold_incomplete : (Instr.aHoldIncomplete rsp).wf = false := by decide
theorem test_wf_refuses_exception_response : (Instr.aResponse ⟨1, 0x84, [], 0⟩ []).wf = false := by decide
theorem test_wf_refuses_long_response : (Instr.aResponse ⟨1, 4, List.replicate 256 0, 0⟩ []).wf = false := by decide +kernel

/-! ### Decoding: a word or a frame of every row, written out from R64 to R82. Fields the command ignores are non-zero. -/

theorem test_decode_step : decodeCommand ⟨0x1111111122223301, req, 7⟩ = .step req 7 := by decide
theorem test_decode_read : decodeCommand ⟨0x0000000000000002, rsp, 9⟩ = .read rsp 9 := by decide
theorem test_decode_crc16 : decodeCommand ⟨0x0000000000000003, exc, 9⟩ = .crc16 exc := by decide
theorem test_decode_extend : decodeCommand ⟨0x0000200155550710, req, 1⟩ = .extend 7 8193 := by decide
theorem test_decode_getf32 : decodeCommand ⟨0x00000000FFFE0120, [], 0⟩ = .getf32 1 0xFFFE := by decide
theorem test_decode_geti16 : decodeCommand ⟨0x000000000012FF21, [], 0⟩ = .geti16 0xFF 0x12 := by decide
theorem test_decode_getu16 : decodeCommand ⟨0x0000000000010122, [], 0⟩ = .getu16 1 1 := by decide
theorem test_decode_geti32 : decodeCommand ⟨0x0000000080000223, [], 0⟩ = .geti32 2 0x8000 := by decide
theorem test_decode_getu32 : decodeCommand ⟨0x0000000000100124, [], 0⟩ = .getu32 1 0x10 := by decide
theorem test_decode_dump : decodeCommand ⟨0x0000000000008028, [], 0⟩ = .dump 0x80 := by decide
theorem test_decode_cfgw : decodeCommand ⟨0x0000006400000030, [], 0⟩ = .cfgw 0 100 := by decide
theorem test_decode_cfgr : decodeCommand ⟨0x00000000FFFF0031, [], 0⟩ = .cfgr 0xFFFF := by decide
theorem test_decode_reset : decodeCommand ⟨0x00000000000000FF, [], 0⟩ = .reset := by decide
theorem test_decode_illegal : decodeCommand ⟨0x0000000000010232, [], 0⟩ = .illegal 0x32 := by decide
theorem test_decode_wEmpty : decode (.idleWindow [] 3) = .wEmpty := by decide
theorem test_decode_wShort : decode (.idleWindow [1, 4, 0, 0] 0) = .wShort 1 [4, 0, 0] := by decide
theorem test_decode_wRequest : decode (.idleWindow (req ++ [0xAA, 0xBB]) 5) = .wRequest ⟨1, 0, 2, 0xCB71⟩ [0xAA, 0xBB] 5 := by
  decide
theorem test_decode_wExceptionIdle :
    decode (.idleWindow (exc ++ [1]) 0) = .wExceptionIdle ⟨1, 0x84, 2, 0xC1C2⟩ [1] := by decide
theorem test_decode_wNoise : decode (.idleWindow [1, 4, 0, 0, 0, 0, 0] 0) = .wNoise 1 4 [0, 0, 0, 0, 0] := by decide
theorem test_decode_aHoldShort : decode (.awaitBuffer [1, 0x84, 2, 0xC2]) = .aHoldShort [1, 0x84, 2, 0xC2] := by decide
theorem test_decode_aException : decode (.awaitBuffer (exc ++ req)) = .aException ⟨1, 0x84, 2, 0xC1C2⟩ req := by decide
theorem test_decode_aHoldIncomplete :
    decode (.awaitBuffer [1, 4, 4, 0, 0, 0, 1, 0x3A]) = .aHoldIncomplete [1, 4, 4, 0, 0, 0, 1, 0x3A] := by decide
theorem test_decode_aResponse :
    decode (.awaitBuffer (rsp ++ [0xAA])) = .aResponse ⟨1, 4, [0, 0, 0, 1], 0x443A⟩ [0xAA] := by decide

/-- The command words of R82, encoded. -/
theorem test_encode_words :
    encode (.getu16 1 1) = .command ⟨0x0000000000010122, [], 0⟩ ∧ encode (.extend 7 8193) = .command ⟨0x0000200100000710, [], 0⟩ ∧
    encode (.cfgw 0 100) = .command ⟨0x0000006400000030, [], 0⟩ ∧ encode .reset = .command ⟨0xFF, [], 0⟩ := by decide

/-! ### The host's probe -/

theorem test_decodeTableWord : decodeTableWord 64 0x0000200100000710 = some (.extend 7 8193) := by decide
theorem test_decodeTableWord_byte : decodeTableWord 8 0xFF = some .reset := by decide

theorem test_withFetchWord_runs_the_word :
    (next? (step (State.reset.withFetchWord 64 0x0000200100000710))).map (·.out.res) = some 12288 := by decide +kernel

/-! ### CRC16 (95_test_vectors.md 2.1) -/

theorem test_crc16_check_string :
    crc16 [0x31, 0x32, 0x33, 0x34, 0x35, 0x36, 0x37, 0x38, 0x39] = 0x4B37 := by decide +kernel
theorem test_crc16_residue : ports? (.crc16 rsp) idle = some Ports.default := by decide +kernel

/-! ### STEP and the wire rows (95_test_vectors.md 2.2 to 2.4) -/

theorem test_step_bad_crc_request_is_captured :
    ports? (.step [0x01, 0x04, 0x00, 0x00, 0x00, 0x01, 0x31, 0xCB] 0) idle =
      some { Ports.default with evt := [⟨3, 1, 0xCA31, 0xCB31⟩, ⟨9, 1, 0, 1⟩] } := by decide +kernel
theorem test_step_times_out_first :
    ports? (.step rsp 101) (awaiting 0 2) =
      some { Ports.default with rem := [0x44], evt := [⟨7, 1, 0, 2⟩, ⟨3, 1, 0x3AF1, 0x3A01⟩, ⟨9, 1, 0x0400, 0⟩] } := by
  decide +kernel
theorem test_wEmpty : ports? .wEmpty idle = some Ports.default := by decide
theorem test_wShort : ports? (.wShort 1 [4, 0, 0]) idle = some { Ports.default with evt := [⟨1, 1, 4, 0⟩] } := by decide
theorem test_wRequest : (next? (exec (.wRequest ⟨1, 0, 2, 0xCB71⟩ [] 10) idle)).map (·.pend) = some ⟨true, 1, 0, 2, req, 10⟩ := by
  decide +kernel
theorem test_wExceptionIdle :
    ports? (.wExceptionIdle ⟨1, 0x81, 1, 0x9081⟩ [1, 2]) idle =
      some { Ports.default with rem := [1, 2], evt := [⟨5, 1, 0x8101, 0⟩] } := by decide
theorem test_wNoise :
    ports? (.wNoise 0 1 [4, 0, 0, 0, 2, 0x71, 0xCB]) idle = some { Ports.default with evt := [⟨2, 0, 9, 1⟩] } := by decide
theorem test_aHoldShort : (next? (exec (.aHoldShort [1, 4]) (awaiting 0 2))).map (·.asm) = some [1, 4] := by decide
theorem test_aHoldIncomplete :
    (next? (exec (.aHoldIncomplete [1, 4, 4, 0, 0]) (awaiting 0 2))).map (·.asm) = some [1, 4, 4, 0, 0] := by decide
theorem test_aException :
    ports? (.aException ⟨1, 0x84, 2, 0xC1C2⟩ req) (awaiting 0 2) =
      some { Ports.default with rem := req, evt := [⟨5, 1, 0x8402, 1⟩] } := by decide
theorem test_aResponse_clips :
    (next? (exec (.aResponse ⟨1, 4, [0x11, 0x22, 0x33, 0x44], 0x714A⟩ []) (awaiting 32767 2))).map
      (fun t => (t.out.evt, t.len 1, t.byte? 1 65534, t.byte? 1 65535)) =
      some ([⟨8, 1, 65536, 2⟩, ⟨10, 1, 65534, 4⟩], 65536, some 0x11, some 0x22) := by decide +kernel
theorem test_aResponse_grows_early :
    (next? (exec (.aResponse ⟨1, 4, [0xAB, 0xCD], 0⟩ []) (awaiting 2047 1))).map
      (fun t => (t.len 1, t.byte? 1 4094, t.byte? 1 4095, t.byte? 1 4096)) =
      some (8192, some 0xAB, some 0xCD, some 0) := by decide +kernel

/-! ### READ (95_test_vectors.md 1.5 and 2.5) -/

theorem test_read_end_to_end :
    (next? (exec (.read (req ++ rsp) 0) idle)).map (fun t => (t.out.evt, t.pend.valid, t.len 1, t.byte? 1 3)) =
      some ([⟨9, 1, 0, 2⟩, ⟨10, 1, 0, 4⟩], false, 4096, some 1) := by decide +kernel
theorem test_read_with_held_bytes :
    ports? (.read [0xC0, 0xAA] 1) { awaiting 0 2 with asm := [0x01, 0x04, 0x00, 0x22] } =
      some { Ports.default with evt := [⟨6, 1, 0, 4⟩, ⟨10, 1, 0, 0⟩, ⟨1, 0xAA, 1, 0⟩] } := by decide +kernel

/-! ### EXTEND (95_test_vectors.md 2.6) -/

theorem test_extend_saturates : (ports? (.extend 3 99999) (holding 3 61440 0 [])).map (·.res) = some 65536 := by decide +kernel
theorem test_extend_keeps_bytes :
    (next? (exec (.extend 1 5000) (holding 1 4096 3 [1]))).map (fun t => (t.len 1, t.byte? 1 3, t.byte? 1 8191)) =
      some (8192, some 1, some 0) := by decide +kernel

/-! ### Accessors and DUMP (95_test_vectors.md 2.8, 2.9), under LE and under BE -/

theorem test_getf32 :
    ports? (.getf32 1 16) (holding 1 4096 32 [0x3F, 0x80]) = present 0x3F800000 ∧
    ports? (.getf32 1 16) { holding 1 4096 32 [0x3F, 0x80] with order := .be } = present 0x3F800000 := by
  decide +kernel
theorem test_geti16 :
    ports? (.geti16 1 16) (holding 1 4096 32 [0x3F, 0x80]) = present 0xFFFF803F ∧
    ports? (.geti16 1 16) { holding 1 4096 32 [0x3F, 0x80] with order := .be } = present 0x00003F80 := by
  decide +kernel
theorem test_getu16 :
    ports? (.getu16 1 16) (holding 1 4096 32 [0x3F, 0x80]) = present 0x0000803F ∧
    ports? (.getu16 1 16) { holding 1 4096 32 [0x3F, 0x80] with order := .be } = present 0x00003F80 := by
  decide +kernel
theorem test_getu16_out_of_range : ports? (.getu16 1 2048) (holding 1 4096 0 []) = some Ports.default := by decide +kernel
theorem test_geti32 :
    ports? (.geti32 1 0) (holding 1 4096 0 [0xFE, 0xFF, 0xFF, 0xFF]) = present 0xFFFFFFFE ∧
    ports? (.geti32 1 0) { holding 1 4096 0 [0xFE, 0xFF, 0xFF, 0xFF] with order := .be } = present 0xFEFFFFFF := by
  decide +kernel
theorem test_getu32 :
    ports? (.getu32 1 16) (holding 1 4096 32 [0x3F, 0x80]) = present 0x0000803F ∧
    ports? (.getu32 1 16) { holding 1 4096 32 [0x3F, 0x80] with order := .be } = present 0x3F800000 := by
  decide +kernel
theorem test_getu32_past_the_end : ports? (.getu32 1 2047) (holding 1 4096 0 []) = some Ports.default := by decide +kernel
theorem test_dump :
    (ports? (.dump 1) (holding 1 4096 3 [1])).map (fun p => (p.dout.length, p.dout.take 5)) = some (4096, [0, 0, 0, 1, 0]) := by
  decide +kernel
theorem test_dump_unknown : ports? (.dump 2) (holding 1 4096 3 [1]) = some Ports.default := by decide

/-! ### Control (95_test_vectors.md 2.10) -/

theorem test_cfgw_debug_keeps_bit_0 : (next? (exec (.cfgw 1 3) idle)).map (·.cfg) = some ⟨100, true⟩ := by decide
theorem test_cfgw_order_is_illegal : ports? (.cfgw 2 1) idle = some { Ports.default with status := .illegal } := by decide
theorem test_cfgr_reads_timeout_and_order :
    ports? (.cfgr 0) idle = some { Ports.default with res := 100 } ∧ ports? (.cfgr 2) idle = some Ports.default ∧
    ports? (.cfgr 2) { idle with order := .be } = some { Ports.default with res := 1 } := by decide
theorem test_cfgr_unknown : ports? (.cfgr 0xFFFF) idle = some { Ports.default with status := .illegal } := by decide
theorem test_reset_keeps_the_order : (next? (exec .reset { idle with order := .be })).map (·.order) = some .be := by decide
theorem test_reset_forgets_devices : (next? (exec .reset (holding 1 4096 3 [1]))).map (·.store) = some [] := by decide
theorem test_illegal :
    ports? (.illegal 0x25) idle = some { Ports.default with status := .illegal, evt := [⟨11, 0, 0x25, 0⟩] } := by decide

/-! ### Witnesses: the hypotheses of each obligation are met, clause by clause -/

theorem witness_OpcodeSelectsCommandAndOperands : (0x00 : Byte) ∉ assignedOpcodes ∧ (0xFE : Byte) ∉ assignedOpcodes := by decide

theorem witness_DecodeOfEncodeIsTheInstruction :
    (Instr.illegal 0x32).wf = true ∧ (Instr.wShort 1 [4, 0, 0]).wf = true ∧ (Instr.wExceptionIdle ⟨1, 0x81, 2, 0⟩ []).wf = true ∧
    (Instr.wNoise 1 0x80 [0, 0, 0]).wf = true ∧ (Instr.wNoise 1 4 [0, 0, 0, 0, 0]).wf = true ∧
    (Instr.aHoldShort [1, 4, 0, 0x22]).wf = true ∧ (Instr.aException ⟨1, 0xFF, 2, 0⟩ []).wf = true ∧
    (Instr.aHoldIncomplete [1, 4, 4, 0, 0]).wf = true ∧ (Instr.aResponse ⟨1, 0x80, List.replicate 255 7, 0⟩ []).wf = true := by
  decide +kernel

theorem witness_IdleWindowClass :
    ([] : Window).length = 0 ∧ (1 ≤ ([1] : Window).length ∧ ([1, 4, 0, 0] : Window).length ≤ 4) ∧
    (8 ≤ req.length ∧ req[1]? = some 0x04) ∧
    (5 ≤ ([1, 0x81, 1, 0x81, 0x90] : Window).length ∧ 0x81 ≤ (0x81 : Byte).toNat ∧ 0x81 ≤ (0xFF : Byte).toNat) ∧
    (5 ≤ ([1, 0x80, 0, 0, 0] : Window).length ∧ (0x80 : Byte).toNat ≤ 0x80) ∧
    (5 ≤ ([1, 4, 0, 0, 0, 0, 0] : Window).length ∧ ([1, 4, 0, 0, 0, 0, 0] : Window)[1]? = some 0x04 ∧
      ([1, 4, 0, 0, 0, 0, 0] : Window).length ≤ 7) := by decide

theorem witness_AwaitingBufferClass :
    ([1, 0x84, 2, 0xC2] : Window).length ≤ 4 ∧ (5 ≤ exc.length ∧ exc[1]? = some 0x84 ∧ 0x81 ≤ (0x84 : Byte).toNat) ∧
    (5 ≤ (rsp.take 8).length ∧ (rsp.take 8)[1]? = some 0x04 ∧ (rsp.take 8)[2]? = some 4 ∧
      (rsp.take 8).length ≤ (4 : Byte).toNat + 4) ∧
    (rsp[1]? = some 0x04 ∧ rsp[2]? = some 4 ∧ (4 : Byte).toNat + 5 ≤ rsp.length) := by decide

theorem witness_WireFieldByteOrder :
    0x80 < (0x81 : Byte).toNat ∧ (0x80 : Byte).toNat ≤ 0x80 ∧ (List.replicate 255 (7 : Byte)).length ≤ 255 := by decide +kernel

theorem witness_StepExecutesTheOldestCommand :
    (idle.withFetchWord 64 0xFF).cmds = ⟨0xFF, [], 0⟩ :: [] ∧ idle.cmds = [] := by decide

theorem witness_DiscardedWindowOnlyReports :
    ((1 : Byte) :: [4, 0, 0]).length ≤ 4 ∧ ((1 : Byte) :: 0x80 :: [0, 0, 0]).length < 2 ^ 32 := by decide

theorem witness_CompleteResponseIsStored :
    Store.wf (awaiting 32767 2).store = true ∧ 65534 = 2 * (awaiting 32767 2).pend.start.toNat ∧
    65536 = max (max ((awaiting 32767 2).len 1) 4096) (min 65536 (4096 * ((65534 + 4 + 1 + 4095) / 4096))) := by decide

theorem witness_HighRegistersAreNeverStored :
    Store.wf (awaiting 32768 1).store = true ∧ (awaiting 32768 1).len 1 = 0 ∧ 32768 ≤ (awaiting 32768 1).pend.start.toNat ∧
    ([0x11, 0x22] : Window).length ≤ 255 ∧ ([0x11, 0x22] : Window) ≠ [] := by decide

theorem witness_StepRunsTheClassOfItsWindow :
    (awaiting 0 2).pend.valid = true ∧ 101 - (awaiting 0 2).pend.time > (awaiting 0 2).cfg.reqTimeout.toNat ∧
    100 - (awaiting 0 2).pend.time ≤ (awaiting 0 2).cfg.reqTimeout.toNat ∧ idle.pend.valid = false := by decide

theorem witness_NonEmptyRemainderConsumesFiveBytes :
    (awaiting 0 2).inv = true ∧ ∃ t, exec (.step (exc ++ [0xAA]) 1) (awaiting 0 2) = .next t ∧ t.out.rem ≠ [] :=
  ⟨by decide, _, rfl, by decide⟩

theorem witness_ResponseMaySplitAnywhere :
    (awaiting 0 2).pend.valid = true ∧ (awaiting 0 2).asm = [] ∧ rsp[1]? = some 0x04 ∧ (0x04 : Byte).toNat ≤ 0x80 ∧
    rsp[2]? = some 4 ∧ rsp.length = (4 : Byte).toNat + 5 ∧ 1 ≤ 8 ∧ 8 ≤ rsp.length - 1 ∧
    100 - (awaiting 0 2).pend.time ≤ (awaiting 0 2).cfg.reqTimeout.toNat := by decide

set_option maxRecDepth 4000 in
/-- A RESPONSE_STORED of device 1 at offsets 0 to 3 and a byte of device 1 at offset 4. -/
theorem witness_StoredBytesAreThoseReported :
    ∃ t, exec (.step rsp 1) { awaiting 0 2 with store := (holding 1 4096 4 [9]).store } = .next t ∧
      4 < ({ awaiting 0 2 with store := (holding 1 4096 4 [9]).store } : State).len 1 ∧
      (∀ e ∈ t.out.evt, e.code = 10 → e.dev = 1 → ¬(e.a.toNat ≤ 4 ∧ 4 < e.a.toNat + e.b.toNat)) := by
  refine ⟨_, rfl, by decide, ?_⟩
  decide +kernel

theorem witness_ReadRunsStepsUntilNoRemainder :
    (∃ s₁, exec (.step [1] 0) idle = .next s₁ ∧ s₁.out.rem = []) ∧
    (∃ s₁ s₂, exec (.step (exc ++ [1]) 0) idle = .next s₁ ∧ s₁.out.rem ≠ [] ∧ exec (.read s₁.out.rem 0) s₁ = .next s₂) :=
  ⟨⟨_, rfl, rfl⟩, _, _, rfl, by decide, rfl⟩

theorem witness_ReadTerminatesWithinItsBound :
    ([0xC0, 0xAA] : Window) ≠ [] ∧ idle.inv = true ∧ idle.pend.valid = false ∧
    ({ awaiting 0 2 with asm := [0x01, 0x04, 0x00, 0x22] } : State).inv = true := by decide

theorem witness_ObservedExchangeIsStored :
    Store.wf idle.store = true ∧ idle.pend.valid = false ∧ (0x80 : Byte).toNat ≤ 0x80 ∧ ([0xAB, 0xCD] : Window).length ≤ 255 ∧
    1 < ([0xAB, 0xCD] : Window).length ∧ 2 * (32767 : Half).toNat + 1 < 65536 := by decide

theorem witness_StepKeepsTheInvariant :
    ((awaiting 0 2).withFetchWord 64 0x03).inv = true ∧
    ∃ t, step ((awaiting 0 2).withFetchWord 64 0x03) = .next t := ⟨by decide, _, rfl⟩

theorem witness_AssemblyBufferStaysBounded :
    ({ awaiting 0 2 with asm := [1, 4, 4, 0, 0] }.withFetchWord 64 0x03).inv = true ∧
    ∃ t, step ({ awaiting 0 2 with asm := [1, 4, 4, 0, 0] }.withFetchWord 64 0x03) = .next t := ⟨by decide, _, rfl⟩

theorem witness_StoreLengthsAreLegalAndNeverShrink :
    (holding 1 4096 3 [1]).inv = true ∧ (holding 1 4096 3 [1]).alloc 1 = true ∧ (holding 1 4096 3 [1]).alloc 2 = false ∧
    (∃ t, step ((holding 1 4096 3 [1]).withFetchWord 64 0x03) = .next t) ∧
    (∀ c rest, ((holding 1 4096 3 [1]).withFetchWord 64 0x03).cmds = c :: rest → decode (.command c) ≠ .reset) := by
  refine ⟨by decide, by decide, by decide, ⟨_, rfl⟩, fun c rest h => ?_⟩
  injection h with h _
  subst h
  decide

/-- A capture; a cleared request; a request that stays pending. -/
theorem witness_PendingRequestLifetime :
    (idle.pend.valid = false ∧ ∃ t, exec (.step req 0) idle = .next t ∧ t.pend.valid = true) ∧
    ((awaiting 0 2).pend.valid = true ∧ ∃ t, exec (.step exc 1) (awaiting 0 2) = .next t ∧ t.pend.valid = false) ∧
    (∃ t, exec (.step [1] 1) (awaiting 0 2) = .next t ∧ t.pend.valid = true ∧ ∀ e ∈ t.out.evt, e.code ≠ 9) :=
  ⟨⟨rfl, _, rfl, rfl⟩, ⟨rfl, _, rfl, rfl⟩, _, rfl, rfl, by decide⟩

theorem witness_UnspecifiedPendingFieldsAreNeverRead :
    (⟨false, 9, 8, 7, req, 6⟩ : Pending).valid = (idle.withFetchWord 64 0x03).pend.valid ∧
    (idle.withFetchWord 64 0x03).pend.valid = false ∧ ∃ t, step (idle.withFetchWord 64 0x03) = .next t :=
  ⟨rfl, rfl, _, rfl⟩

theorem witness_DebugAffectsNothingButItsOwnRead :
    (Instr.cfgr 0x0000 ≠ .cfgr 0x0001) ∧ ∃ t, exec (.cfgr 0x0000) idle = .next t := ⟨by decide, _, rfl⟩

theorem witness_OnlyStoringInstructionsTouchTheStore :
    (∃ t, exec (.dump 1) (holding 1 4096 3 [1]) = .next t) ∧ (∀ w now, Instr.dump 1 ≠ .step w now ∧ Instr.dump 1 ≠ .read w now) ∧
    (∀ d n, Instr.dump 1 ≠ .extend d n) ∧ Instr.dump 1 ≠ .reset ∧ (∀ r rest, Instr.dump 1 ≠ .aResponse r rest) :=
  ⟨⟨_, rfl⟩, by simp, by simp, by simp, by simp⟩

theorem witness_RegistersChangeOnlyByTheirWriters :
    (∃ t, exec (.extend 1 0) idle = .next t) ∧ (∀ idx v, Instr.extend 1 0 ≠ .cfgw idx v) ∧ Instr.extend 1 0 ≠ .reset ∧
    (Instr.extend 1 0).isCommand = true ∧ (∀ w now, Instr.extend 1 0 ≠ .step w now ∧ Instr.extend 1 0 ≠ .read w now) :=
  ⟨⟨_, rfl⟩, by simp, by simp, rfl, by simp⟩

/-- Both sides of the equivalence, for CFGW at its boundary. -/
theorem witness_StatusIsIllegalOnlyThere :
    (Instr.cfgw 1 0).isCommand = true ∧ (∃ t, exec (.cfgw 1 0) idle = .next t ∧ t.out.status = .ok) ∧
    (∃ t, exec (.cfgw 2 0) idle = .next t ∧ t.out.status = .illegal) := ⟨rfl, ⟨_, rfl, rfl⟩, _, rfl, rfl⟩

theorem witness_EventCodesAreThoseOfTheTable :
    (Instr.step exc 0).isCommand = true ∧ ∃ t, exec (.step exc 0) idle = .next t ∧ t.out.evt ≠ [] :=
  ⟨rfl, _, rfl, by decide⟩

theorem witness_ExtendGrowsItsDevice : Store.wf (holding 1 4096 3 [1]).store = true ∧ (holding 1 4096 3 [1]).len 1 = 4096 := by
  decide

theorem witness_GrowthOverAnySequence :
    Store.wf idle.store = true ∧ ([(3, 0), (3, 4097), (3, 99999)].foldl (fun u c => extend c.1 c.2 u) idle).len 3 = 65536 ∧
    ((3 : Byte), 99999) ∈ [((3 : Byte), 0), (3, 4097), (3, 99999)] := by decide +kernel

theorem witness_GrowthLoopEndsWithinSixteenPasses :
    16 ≤ 16 ∧ growLoop 15 65535 0 = 61440 ∧ (4096 % 4096 = 0 ∧ 4096 ≤ 65536) ∧ (65536 % 4096 = 0 ∧ 4096 ≤ 65536) := by decide

/-- Each clause of the byte order has a state that selects it. -/
theorem witness_byte_orders : idle.order = .le ∧ ({ idle with order := .be } : State).order = .be := by decide

theorem witness_GetU16Value :
    (holding 1 4096 4094 [7]).byte? 1 (2 * (2047 : Half).toNat) = some 7 ∧
    (holding 1 4096 4094 [7]).byte? 1 (2 * (2047 : Half).toNat + 1) = some 0 ∧
    7 = (match (holding 1 4096 4094 [7]).order with
      | .le => (7 : Byte).toNat + (0 : Byte).toNat * 256
      | .be => (7 : Byte).toNat * 256 + (0 : Byte).toNat) ∧
    (holding 1 4096 0 []).len 1 < 2 * (2048 : Half).toNat + 2 ∧ idle.alloc 9 = false := by decide +kernel

theorem witness_GetI16Value :
    (holding 1 4096 2 [0x01, 0x80]).byte? 1 (2 * (1 : Half).toNat) = some 0x01 ∧
    (holding 1 4096 2 [0x01, 0x80]).byte? 1 (2 * (1 : Half).toNat + 1) = some 0x80 ∧
    32769 = (match (holding 1 4096 2 [0x01, 0x80]).order with
      | .le => (0x01 : Byte).toNat + (0x80 : Byte).toNat * 256
      | .be => (0x01 : Byte).toNat * 256 + (0x80 : Byte).toNat) ∧ idle.alloc 9 = false := by decide

/-- The four bytes the 32-bit accessors read at index 2046, the last that is present in 4096 bytes, and the first that is not. -/
theorem witness_GetU32Value :
    (holding 1 4096 4092 [1, 2, 3, 4]).byte? 1 (2 * (2046 : Half).toNat) = some 1 ∧
    (holding 1 4096 4092 [1, 2, 3, 4]).byte? 1 (2 * (2046 : Half).toNat + 1) = some 2 ∧
    (holding 1 4096 4092 [1, 2, 3, 4]).byte? 1 (2 * (2046 : Half).toNat + 2) = some 3 ∧
    (holding 1 4096 4092 [1, 2, 3, 4]).byte? 1 (2 * (2046 : Half).toNat + 3) = some 4 ∧
    67305985 = (match (holding 1 4096 4092 [1, 2, 3, 4]).order with
      | .le => (1 : Byte).toNat + (2 : Byte).toNat * 2 ^ 8 + (3 : Byte).toNat * 2 ^ 16 + (4 : Byte).toNat * 2 ^ 24
      | .be => (1 : Byte).toNat * 2 ^ 24 + (2 : Byte).toNat * 2 ^ 16 + (3 : Byte).toNat * 2 ^ 8 + (4 : Byte).toNat) ∧
    (holding 1 4096 0 []).len 1 < 2 * (2047 : Half).toNat + 4 := by decide +kernel

theorem witness_GetI32Value :
    (holding 1 4096 0 [0xFE, 0xFF, 0xFF, 0xFF]).byte? 1 (2 * (0 : Half).toNat) = some 0xFE ∧
    (holding 1 4096 0 [0xFE, 0xFF, 0xFF, 0xFF]).byte? 1 (2 * (0 : Half).toNat + 1) = some 0xFF ∧
    (holding 1 4096 0 [0xFE, 0xFF, 0xFF, 0xFF]).byte? 1 (2 * (0 : Half).toNat + 2) = some 0xFF ∧
    (holding 1 4096 0 [0xFE, 0xFF, 0xFF, 0xFF]).byte? 1 (2 * (0 : Half).toNat + 3) = some 0xFF ∧
    4294967294 = (match (holding 1 4096 0 [0xFE, 0xFF, 0xFF, 0xFF]).order with
      | .le => (0xFE : Byte).toNat + (0xFF : Byte).toNat * 2 ^ 8 + (0xFF : Byte).toNat * 2 ^ 16 + (0xFF : Byte).toNat * 2 ^ 24
      | .be => (0xFE : Byte).toNat * 2 ^ 24 + (0xFF : Byte).toNat * 2 ^ 16 + (0xFF : Byte).toNat * 2 ^ 8 + (0xFF : Byte).toNat) ∧
    idle.alloc 9 = false := by decide

theorem witness_GetF32Value :
    (holding 1 4096 0 [0x3F, 0x80]).byte? 1 (2 * (0 : Half).toNat) = some 0x3F ∧
    (holding 1 4096 0 [0x3F, 0x80]).byte? 1 (2 * (0 : Half).toNat + 1) = some 0x80 ∧
    (holding 1 4096 0 [0x3F, 0x80]).byte? 1 (2 * (0 : Half).toNat + 2) = some 0 ∧
    (holding 1 4096 0 [0x3F, 0x80]).byte? 1 (2 * (0 : Half).toNat + 3) = some 0 ∧
    (holding 1 4096 0 []).len 1 < 2 * (2047 : Half).toNat + 4 := by decide +kernel

theorem witness_MixedWidthViewsAgree :
    (holding 1 4096 2 [1, 2, 3, 4]).order = .le ∧ (1 : Half).toNat < 65535 ∧ ∃ t₀ t₁ t f,
      exec (.getu16 1 1) (holding 1 4096 2 [1, 2, 3, 4]) = .next t₀ ∧
      exec (.getu16 1 (1 + 1)) (holding 1 4096 2 [1, 2, 3, 4]) = .next t₁ ∧
      exec (.getu32 1 1) (holding 1 4096 2 [1, 2, 3, 4]) = .next t ∧
      exec (.getf32 1 1) (holding 1 4096 2 [1, 2, 3, 4]) = .next f ∧ t₀.out.present = true ∧ t₁.out.present = true :=
  ⟨rfl, by decide, _, _, _, _, rfl, rfl, rfl, rfl, rfl, rfl⟩

theorem witness_DumpReturnsTheBuffer : idle.alloc 9 = false := by decide

theorem witness_ReadsHaveNoSideEffect :
    (∃ t, exec (.getf32 9 65535) idle = .next t) ∧ (awaiting 0 2).store = idle.store ∧ (awaiting 0 2).order = idle.order :=
  ⟨⟨_, rfl⟩, rfl, rfl⟩

theorem witness_RegistersFrom32768AreAbsent :
    (holding 1 65536 65534 [7, 8]).inv = true ∧ 32768 ≤ (32768 : Half).toNat ∧ 32767 ≤ (32767 : Half).toNat := by decide +kernel

theorem witness_CfgwWritesItsRegister : 2 ≤ (2 : Half).toNat := by decide

theorem witness_CfgrReadsItsRegister : 3 ≤ (3 : Half).toNat := by decide

theorem witness_ConfigurationReadsBack :
    (∃ t, exec (.cfgw 0x0000 5) idle = .next t) ∧ ∃ t, exec (.cfgw 0x0001 3) idle = .next t := ⟨⟨_, rfl⟩, _, rfl⟩

theorem witness_ResetEstablishesTheResetState : ∃ t, exec .reset (holding 1 4096 3 [1]) = .next t := ⟨_, rfl⟩

theorem witness_UnassignedOpcodeIsIllegal : Command.op ⟨0x0000000000010232, [], 0⟩ ∉ assignedOpcodes := by decide

end Sys2Proof.Tests
end

section
/-! SUPPORT. What a command and a step can do, said once for every command; and READ as a run of STEPs. -/

namespace Sys2Proof.Machine

/-! ### A step and its command -/

theorem outcome_eq_next {x : Except Fault State} {t : State} : outcome x = .next t ↔ x = .ok t := by
  cases x <;> simp [outcome]

theorem step_of_nil {s : State} (h : s.cmds = []) : step s = .next s := by
  simp [step, State.nextCommand?, h]

theorem step_of_cons {s : State} {c : Command} {rest : List Command} (h : s.cmds = c :: rest) :
    step s = exec (decodeCommand c) { s with cmds := rest } := by
  simp [step, State.nextCommand?, h]

/-- A step waits, with no command issued, or runs the oldest one. -/
theorem step_cases {s t : State} (h : step s = .next t) :
    (s.cmds = [] ∧ t = s) ∨
      ∃ c rest, s.cmds = c :: rest ∧ exec (decodeCommand c) { s with cmds := rest } = .next t := by
  cases hc : s.cmds with
  | nil =>
    rw [step_of_nil hc] at h
    cases h
    exact .inl ⟨rfl, rfl⟩
  | cons c rest => exact .inr ⟨c, rest, rfl, step_of_cons hc ▸ h⟩

/-- A command word decodes to a command, never to a frame class (30_encoding.md R78, R79). -/
theorem decodeCommand_isCommand (c : Command) : (decodeCommand c).isCommand = true := by
  apply decodeCommand_cases c (fun i => i.isCommand = true) <;> simp [Instr.isCommand]

/-! ### The configuration commands -/

/-- What CFGW does in every state, by the number it writes (44_control.md R144, R145). -/
theorem exec_cfgw_cases (idx : Half) (v : Word) :
    (idx = 0x0000 ∧ ∀ s, exec (.cfgw idx v) s =
      .next { s with cfg := { s.cfg with reqTimeout := v }, out := Ports.default }) ∨
    (idx = 0x0001 ∧ ∀ s, exec (.cfgw idx v) s =
      .next { s with cfg := { s.cfg with debug := v.getLsbD 0 }, out := Ports.default }) ∨
    (idx ≠ 0x0000 ∧ idx ≠ 0x0001 ∧ ∀ s, exec (.cfgw idx v) s = .next { s with out := illegalPorts }) := by
  by_cases h0 : idx = 0x0000
  · subst h0
    exact .inl ⟨rfl, fun _ => rfl⟩
  · by_cases h1 : idx = 0x0001
    · subst h1
      exact .inr (.inl ⟨rfl, fun _ => rfl⟩)
    · refine .inr (.inr ⟨h0, h1, fun s => ?_⟩)
      simp only [exec, execCfgw, State.cfgWrite?, if_neg h0, if_neg h1]

/-- What CFGR does in every state, by the number it reads (44_control.md R146, R147). -/
theorem exec_cfgr_cases (idx : Half) :
    (idx = 0x0000 ∧ ∀ s, exec (.cfgr idx) s = .next { s with out := { Ports.default with res := s.cfg.reqTimeout } }) ∨
    (idx = 0x0001 ∧ ∀ s, exec (.cfgr idx) s =
      .next { s with out := { Ports.default with res := if s.cfg.debug then 1 else 0 } }) ∨
    (idx = 0x0002 ∧ ∀ s, exec (.cfgr idx) s =
      .next { s with out := { Ports.default with res := orderRegister s.order } }) ∨
    (idx ≠ 0x0000 ∧ idx ≠ 0x0001 ∧ idx ≠ 0x0002 ∧ ∀ s, exec (.cfgr idx) s = .next { s with out := illegalPorts }) := by
  by_cases h0 : idx = 0x0000
  · subst h0
    exact .inl ⟨rfl, fun _ => rfl⟩
  · by_cases h1 : idx = 0x0001
    · subst h1
      exact .inr (.inl ⟨rfl, fun _ => rfl⟩)
    · by_cases h2 : idx = 0x0002
      · subst h2
        exact .inr (.inr (.inl ⟨rfl, fun _ => rfl⟩))
      · refine .inr (.inr (.inr ⟨h0, h1, h2, fun s => ?_⟩))
        simp only [exec, execCfgr, State.cfgRead?, if_neg h0, if_neg h1, if_neg h2]

/-! ### The commands of the register store and the result ports -/

/-- The commands that read the register store and INT_BYTE_ORDER at most, and write the store and the result ports at most. -/
def isDataCommand : Instr → Bool
  | .crc16 _ | .extend _ _ | .getf32 _ _ | .geti16 _ _ | .getu16 _ _ | .geti32 _ _ | .getu32 _ _ | .dump _ | .illegal _ => true
  | _ => false

/-- Every command is STEP, READ, CFGW, CFGR, RESET or a data command. -/
theorem command_cases {i : Instr} (h : i.isCommand = true) :
    (∃ w now, i = .step w now) ∨ (∃ w now, i = .read w now) ∨ (∃ idx v, i = .cfgw idx v) ∨ (∃ idx, i = .cfgr idx) ∨
      i = .reset ∨ isDataCommand i = true := by
  cases i <;> simp_all [Instr.isCommand, isDataCommand]

/-- No buffer shrinks and no device is forgotten. -/
def StoreGrows (s t : State) : Prop := ∀ d : Byte, s.len d ≤ t.len d ∧ (s.alloc d = true → t.alloc d = true)

theorem StoreGrows.of_store_eq {s t : State} (h : t.store = s.store) : StoreGrows s t :=
  fun d => ⟨(State.len_congr h d).ge, fun ha => (State.alloc_congr h d).trans ha⟩

theorem StoreGrows.trans {s t u : State} (h₁ : StoreGrows s t) (h₂ : StoreGrows t u) : StoreGrows s u :=
  fun d => ⟨(h₁ d).1.trans (h₂ d).1, fun ha => (h₂ d).2 ((h₁ d).2 ha)⟩

theorem storeGrows_extend (d : Byte) (req : Nat) (s : State) : StoreGrows s (extend d req s) := by
  obtain ⟨-, -, halloc, -⟩ := extend_spec d req s
  exact fun d' => ⟨extend_len_ge d req s d', fun ha => by simp [halloc, ha]⟩

theorem inRange_congr {s u : State} (h : u.store = s.store) (d : Byte) (idx : Half) (n : Nat) :
    u.inRange d idx n = s.inRange d idx n := by
  simp [State.inRange, State.alloc_congr h, State.len_congr h]

theorem storeRead_congr {s u : State} (h : u.store = s.store) (d : Byte) (a : Nat) :
    storeRead d a u = storeRead d a s := by
  simp [storeRead_eq, State.byte?_congr h]

theorem fetch2_congr {s u : State} (h : u.store = s.store) (d : Byte) (idx : Half) : fetch2 d idx u = fetch2 d idx s := by
  simp [fetch2, inRange_congr h, storeRead_congr h]

theorem fetch4_congr {s u : State} (h : u.store = s.store) (d : Byte) (idx : Half) : fetch4 d idx u = fetch4 d idx s := by
  simp [fetch4, inRange_congr h, storeRead_congr h]

/-- An accessor of width 2 answers alike in every state with the same store. -/
theorem access2_of_store (f : Byte → Byte → Word) (d : Byte) (idx : Half) (s : State) :
    ∃ o, ∀ u : State, u.store = s.store → access2 f d idx u = .ok { u with out := o } := by
  obtain ⟨v, hs, -⟩ := access2_spec f d idx s
  cases hf : fetch2 d idx s with
  | error e => simp [access2, hf, bind, Except.bind] at hs
  | ok bytes =>
    refine ⟨readPorts (bytes.map fun b => f b.1 b.2), fun u hu => ?_⟩
    rw [access2, fetch2_congr hu, hf]
    rfl

/-- An accessor of width 4 answers alike in every state with the same store. -/
theorem access4_of_store (f : Byte → Byte → Byte → Byte → Word) (d : Byte) (idx : Half) (s : State) :
    ∃ o, ∀ u : State, u.store = s.store → access4 f d idx u = .ok { u with out := o } := by
  obtain ⟨v, hs, -⟩ := access4_spec f d idx s
  cases hf : fetch4 d idx s with
  | error e => simp [access4, hf, bind, Except.bind] at hs
  | ok bytes =>
    refine ⟨readPorts (bytes.map fun b => f b.1 b.2.1 b.2.2.1 b.2.2.2), fun u hu => ?_⟩
    rw [access4, fetch4_congr hu, hf]
    rfl

/-- Extend grows the store alike in every state with the same store. -/
theorem extend_of_store {s u : State} (h : u.store = s.store) (d : Byte) (req : Nat) :
    extend d req u = { u with store := (extend d req s).store } := by
  have hstore : (extend d req u).store = (extend d req s).store := by
    unfold extend
    rw [State.buffer?_congr h]
    cases s.buffer? d with
    | none => simp [h]
    | some b =>
      dsimp only
      split_ifs <;> simp [h]
  rw [← hstore]
  exact (extend_spec d req u).1

/-- In every state with this store and INT_BYTE_ORDER, the instruction completes and writes one and the same store and result
ports, and nothing else; the store it writes shrinks no buffer. -/
def StoreDecides (i : Instr) (s : State) : Prop :=
  ∃ st o, StoreGrows s { s with store := st } ∧
    ∀ u : State, u.store = s.store → u.order = s.order → exec i u = .next { u with store := st, out := o }

theorem StoreDecides.of_ports {i : Instr} {s : State} (o : Ports)
    (h : ∀ u : State, u.store = s.store → exec i u = .next { u with out := o }) : StoreDecides i s :=
  ⟨s.store, o, .of_store_eq rfl, fun u hu _ => by rw [h u hu, ← hu]⟩

theorem StoreDecides.of_access {i : Instr} {s : State} (a : ByteOrder → State → Except Fault State)
    (hi : ∀ u, exec i u = outcome (a u.order u))
    (ha : ∃ o, ∀ u : State, u.store = s.store → a s.order u = .ok { u with out := o }) : StoreDecides i s := by
  obtain ⟨o, ho⟩ := ha
  refine ⟨s.store, o, .of_store_eq rfl, fun u hu horder => ?_⟩
  rw [hi, outcome_eq_next, horder, ho u hu, ← hu, ← horder]

/-- The store and INT_BYTE_ORDER decide what a data command does (42_register_store.md R129; 43_accessors.md R143; 40_crc.md R92;
44_control.md R148). -/
theorem exec_dataCommand {i : Instr} (hi : isDataCommand i = true) (s : State) : StoreDecides i s := by
  cases i with
  | crc16 win => exact .of_ports { Ports.default with res := (crc16 win).setWidth 32 } fun _ _ => rfl
  | illegal op => exact .of_ports { illegalPorts with evt := [.illegalCommand op] } fun _ _ => rfl
  | dump dev =>
    refine .of_ports { Ports.default with dout := s.bufferBytes dev } fun u hu => ?_
    have hbytes : u.bufferBytes dev = s.bufferBytes dev := by simp [State.bufferBytes, State.buffer?_congr hu]
    rw [← hbytes]
    rfl
  | getf32 dev idx => exact .of_access (fun _ => access4 resF32 dev idx) (fun _ => rfl) (access4_of_store _ _ _ _)
  | geti16 dev idx => exact .of_access (fun o => access2 (resI16 o) dev idx) (fun _ => rfl) (access2_of_store _ _ _ _)
  | getu16 dev idx => exact .of_access (fun o => access2 (resU16 o) dev idx) (fun _ => rfl) (access2_of_store _ _ _ _)
  | geti32 dev idx => exact .of_access (fun o => access4 (resI32 o) dev idx) (fun _ => rfl) (access4_of_store _ _ _ _)
  | getu32 dev idx => exact .of_access (fun o => access4 (resU32 o) dev idx) (fun _ => rfl) (access4_of_store _ _ _ _)
  | extend dev size =>
    refine ⟨(extend dev size.toNat s).store,
      { Ports.default with res := word ((extend dev size.toNat s).len dev) }, ?_, fun u hu _ => ?_⟩
    · rw [← extend_of_store rfl]
      exact storeGrows_extend dev size.toNat s
    · have hgrown := extend_of_store hu dev size.toNat
      have hlen : (extend dev size.toNat u).len dev = (extend dev size.toNat s).len dev :=
        State.len_congr (by rw [hgrown]) dev
      simp only [exec, execExtend, hlen]
      rw [hgrown]
  | _ => cases hi

/-! ### What a STEP does to the pending request, the assembly buffer and the store -/

/-- What an operation of the correlator does to the pending request and the assembly buffer, by the events it reports: in Idle
nothing; while awaiting, hold bytes; capture a request; drop the request (10_state.md R24, R26 to R28). -/
inductive PendStep (p : Pending) (asm : Window) (evs : List Event) (t : State) : Prop
  | idle (hs : p.valid = false) (hp : t.pend = p) (ha : t.asm = asm)
  | held (hs : p.valid = true) (hp : t.pend = p) (ha : incomplete t.asm = true)
  | captured (ht : t.pend.valid = true) (ha : t.asm = []) (he : ∃ e ∈ evs, e.code = 9)
  | dropped (hs : p.valid = true) (ht : t.pend.valid = false) (ha : t.asm = [])
      (he : ∃ e ∈ evs, e.code = 7 ∨ (e.code = 5 ∧ e.b = 1) ∨ e.code = 10)

/-- Idle decoding adds to the events; it captures a request and reports it, or leaves the pending request and the assembly
buffer (41_correlator.md R100 to R104). -/
theorem idleStep_pend (w : Window) (now : Nat) (s : State) :
    ∃ evs, (idleStep w now s).out.evt = s.out.evt ++ evs ∧
      (((idleStep w now s).pend = s.pend ∧ (idleStep w now s).asm = s.asm) ∨
        ((idleStep w now s).pend.valid = true ∧ (idleStep w now s).asm = [] ∧ ∃ e ∈ evs, e.code = 9)) := by
  unfold idleStep
  cases decodeIdle w with
  | empty => exact ⟨[], by simp [idleEmpty], .inl ⟨rfl, rfl⟩⟩
  | short dev rest => exact ⟨_, rfl, .inl ⟨rfl, rfl⟩⟩
  | exception e rest => exact ⟨_, rfl, .inl ⟨rfl, rfl⟩⟩
  | noise dev fc rest => exact ⟨_, rfl, .inl ⟨rfl, rfl⟩⟩
  | request q rest =>
    refine ⟨(if decide (crc16 q.head ≠ q.crc) then [.badCrcRequest q.dev (crc16 q.head) q.crc] else []) ++
      [.requestCaptured q.dev q.start q.count], ?_, .inr ⟨rfl, rfl, .requestCaptured q.dev q.start q.count, ?_, rfl⟩⟩
    · simp [capture, List.append_assoc]
    · simp

/-- What decoding holds back is incomplete (30_encoding.md R72). -/
theorem incomplete_of_hold {a b : Window} (h : decodeAwait a = .holdShort b ∨ decodeAwait a = .holdIncomplete b) :
    incomplete b = true := by
  rcases decodeAwait_cases a with ⟨hlen, hd⟩ | ⟨e, rest, -, -, hd⟩ | ⟨dev, fc, bc, rest, rfl, hlen, he, hbc, hd⟩ |
    ⟨r, rest, -, -, -, hd⟩
  · obtain rfl : a = b := by simpa [hd] using h
    simp [incomplete, hlen]
  · simp [hd] at h
  · obtain rfl : dev :: fc :: bc :: rest = b := by simpa [hd] using h
    have hshort : rest.length + 1 + 1 + 1 < bc.toNat + 5 := by omega
    simp [incomplete, functionCode?, byteCount?, he, hshort]
  · simp [hd] at h

/-- The bytes of an incomplete frame number at most 259: a byte count is at most 255 (10_state.md R28). -/
theorem length_le_of_incomplete {a : Window} (h : incomplete a = true) : a.length ≤ 259 := by
  rw [incomplete, Bool.or_eq_true, decide_eq_true_eq] at h
  rcases h with h | h
  · omega
  · split at h
    next fc bc _ _ =>
      have hlt := bc.isLt
      simp only [Bool.and_eq_true, decide_eq_true_eq] at h
      omega
    · cases h

/-- AwaitStep holds the bytes and keeps the request, or drops it and reports why. -/
theorem awaitStep_pend {w : Window} {s t : State} (hs : s.pend.valid = true) (h : awaitStep w s = .ok t) :
    PendStep s.pend s.asm t.out.evt t := by
  rcases awaitStep_cases w s with ⟨a, hd, hrun⟩ | ⟨e, rest, -, hrun⟩ | ⟨r, rest, -, hrun⟩
  · cases hrun.symm.trans h
    exact .held hs rfl (incomplete_of_hold hd)
  · cases hrun.symm.trans h
    exact .dropped hs rfl rfl ⟨.exceptionFrame e.dev e.fc e.code true, by simp [awaitException], .inr (.inl ⟨rfl, rfl⟩)⟩
  · obtain ⟨u, hu, hframe, -⟩ := complete_spec r rest s
    cases hu.symm.trans (hrun.symm.trans h)
    refine .dropped hs (by rw [hframe]) (by rw [hframe])
      ⟨.responseStored r.dev (responseBase s) r.data.length, ?_, .inr (.inr rfl)⟩
    rw [hframe]
    simp [responseEvents]

/-- What a STEP does to the pending request and the assembly buffer. -/
theorem correlate_pend {w : Window} {now : Nat} {s t : State} (h : correlate w now s = .ok t) :
    PendStep s.pend s.asm t.out.evt t := by
  rcases correlate_cases w now s with ⟨hto, hrun⟩ | ⟨-, hv, hrun⟩ | ⟨-, hv, hrun⟩
  · cases hrun.symm.trans h
    have hv : s.pend.valid = true := (Bool.and_eq_true_iff.mp hto).1
    obtain ⟨evs, hevt, ⟨hp, ha⟩ | ⟨hp, ha, e, he, hcode⟩⟩ := idleStep_pend w now s.clearOut.timeout
    · refine .dropped hv (by rw [hp]; rfl) ha ⟨.requestTimeout s.pend.dev s.pend.start s.pend.count, ?_, .inl rfl⟩
      simp [hevt]
    · exact .captured hp ha ⟨e, by simp [hevt, he], hcode⟩
  · exact awaitStep_pend (s := s.clearOut) hv (hrun.symm.trans h)
  · cases hrun.symm.trans h
    obtain ⟨evs, hevt, ⟨hp, ha⟩ | ⟨hp, ha, e, he, hcode⟩⟩ := idleStep_pend w now s.clearOut
    · exact .idle hv hp ha
    · exact .captured hp ha ⟨e, by simp [hevt, he], hcode⟩

/-- A completed response shrinks no buffer. -/
theorem complete_storeGrows {r : ResponseFrame} {rest : Window} {s t : State} (h : complete r rest s = .ok t) :
    StoreGrows s t := by
  obtain ⟨u, hu, -, hlen, halloc, hother, -⟩ := complete_spec r rest s
  cases hu.symm.trans h
  intro d
  refine ⟨?_, fun ha => by simp [halloc, ha]⟩
  by_cases hd : d = r.dev
  · obtain ⟨-, hgrown, -⟩ := extend_spec r.dev (responseBase s + r.data.length + 1) s
    rw [hd, hlen, ← hgrown]
    exact extend_len_ge _ _ _ _
  · simp [State.len, hother d hd]

/-- A STEP shrinks no buffer. -/
theorem correlate_storeGrows {w : Window} {now : Nat} {s t : State} (h : correlate w now s = .ok t) : StoreGrows s t := by
  rcases correlate_cases w now s with ⟨-, hrun⟩ | ⟨-, -, hrun⟩ | ⟨-, -, hrun⟩
  · cases hrun.symm.trans h
    exact .of_store_eq (idleStep_frame _ _ _).1
  · rcases awaitStep_cases w s.clearOut with ⟨a, -, hawait⟩ | ⟨e, rest, -, hawait⟩ | ⟨r, rest, -, hawait⟩
    · cases (hrun.trans hawait).symm.trans h
      exact .of_store_eq rfl
    · cases (hrun.trans hawait).symm.trans h
      exact .of_store_eq rfl
    · exact complete_storeGrows (s := s.clearOut) ((hrun.trans hawait).symm.trans h)
  · cases hrun.symm.trans h
    exact .of_store_eq (idleStep_frame _ _ _).1

/-! ### READ as a run of STEPs -/

/-- A relation of the state before, the events reported and the state after that holds of every STEP holds of READ, if it composes
and does not speak of the result ports (41_correlator.md R115). -/
theorem readWindow_of_step {T : State → List Event → State → Prop}
    (refl : ∀ s, T s [] s) (trans : ∀ {s t u e₁ e₂}, T s e₁ t → T t e₂ u → T s (e₁ ++ e₂) u)
    (out : ∀ {s t e} o, T s e t → T s e { t with out := o })
    (step : ∀ {w now s t}, correlate w now s = .ok t → T s t.out.evt t)
    {w : Window} {now : Nat} {s t : State} (h : readWindow w now s = .ok t) : T s t.out.evt t := by
  have hdrain : ∀ n w all s, drain n w now all s = .ok t → ∃ evs, t.out.evt = all ++ evs ∧ T s evs t := by
    intro n
    induction n with
    | zero =>
      intro w all s h
      cases h
    | succ n ih =>
      intro w all s h
      obtain ⟨s₁, hs₁⟩ := correlate_ok w now s
      simp only [drain, hs₁] at h
      split_ifs at h
      · cases h
        exact ⟨s₁.out.evt, rfl, out _ (step hs₁)⟩
      · obtain ⟨evs, hevt, ht⟩ := ih _ _ _ h
        exact ⟨s₁.out.evt ++ evs, by rw [hevt, List.append_assoc], trans (step hs₁) ht⟩
  unfold readWindow at h
  split_ifs at h
  · cases h
    exact out _ (refl s)
  · obtain ⟨evs, hevt, ht⟩ := hdrain _ _ _ _ h
    rw [hevt]
    exact ht

/-! ### Commands -/

/-- A relation that composes and holds of every STEP, and of whatever leaves the pending request and the assembly buffer and
shrinks no store buffer, holds of every command but RESET. -/
theorem exec_command_of_step {T : State → List Event → State → Prop}
    (quiet : ∀ {s t e}, t.pend = s.pend → t.asm = s.asm → StoreGrows s t → T s e t)
    (trans : ∀ {s t u e₁ e₂}, T s e₁ t → T t e₂ u → T s (e₁ ++ e₂) u)
    (step : ∀ {w now s t}, correlate w now s = .ok t → T s t.out.evt t)
    {i : Instr} {s t : State} (hi : i.isCommand = true) (h : exec i s = .next t) : i = .reset ∨ T s t.out.evt t := by
  have out : ∀ {s t e} o, T s e t → T s e { t with out := o } := by
    intro s t e o h
    simpa using trans h (quiet (e := []) (t := { t with out := o }) rfl rfl (.of_store_eq rfl))
  rcases command_cases hi with ⟨w, now, rfl⟩ | ⟨w, now, rfl⟩ | ⟨idx, v, rfl⟩ | ⟨idx, rfl⟩ | rfl | hdata
  · exact .inr (step (outcome_eq_next.mp h))
  · exact .inr (readWindow_of_step (fun _ => quiet rfl rfl (.of_store_eq rfl)) trans out step (outcome_eq_next.mp h))
  · right
    rcases exec_cfgw_cases idx v with ⟨-, hrun⟩ | ⟨-, hrun⟩ | ⟨-, -, hrun⟩
    all_goals
      cases (hrun s).symm.trans h
      exact quiet rfl rfl (.of_store_eq rfl)
  · right
    rcases exec_cfgr_cases idx with ⟨-, hrun⟩ | ⟨-, hrun⟩ | ⟨-, hrun⟩ | ⟨-, -, -, hrun⟩
    all_goals
      cases (hrun s).symm.trans h
      exact quiet rfl rfl (.of_store_eq rfl)
  · exact .inl rfl
  · obtain ⟨st, o, hgrows, hrun⟩ := exec_dataCommand hdata s
    cases (hrun s rfl rfl).symm.trans h
    exact .inr (quiet rfl rfl hgrows)

theorem exec_reset (s : State) : exec .reset s = .next { State.reset with order := s.order, cmds := s.cmds } := rfl

/-! ### Commands run in two related states -/

/-- Related states differ in nothing that a data command reads or READ's loop looks at, and stay related when one store and one set
of result ports are written to both. -/
structure Unseen (R : State → State → Prop) : Prop where
  store : ∀ {s u}, R s u → u.store = s.store
  order : ∀ {s u}, R s u → u.order = s.order
  asm : ∀ {s u}, R s u → u.asm = s.asm
  out : ∀ {s u}, R s u → u.out = s.out
  write : ∀ {s u} st o, R s u → R { s with store := st, out := o } { u with store := st, out := o }

section Unseen

variable {R : State → State → Prop} (hR : Unseen R)

include hR

theorem Unseen.setOut {s u : State} (o : Ports) (h : R s u) : R { s with out := o } { u with out := o } := by
  simpa only [hR.store h] using hR.write s.store o h

/-- A data command keeps such a relation. -/
theorem Unseen.dataCommand {i : Instr} {s u t : State} (hi : isDataCommand i = true) (h : R s u)
    (ht : exec i s = .next t) : ∃ v, exec i u = .next v ∧ R t v := by
  obtain ⟨st, o, -, hrun⟩ := exec_dataCommand hi s
  cases (hrun s rfl rfl).symm.trans ht
  exact ⟨_, hrun u (hR.store h) (hR.order h), hR.write st o h⟩

/-- READ keeps such a relation if every STEP does. -/
theorem Unseen.readWindow
    (step : ∀ {w now s u t}, R s u → correlate w now s = .ok t → ∃ v, correlate w now u = .ok v ∧ R t v)
    {w : Window} {now : Nat} {s u t : State} (h : R s u) (ht : readWindow w now s = .ok t) :
    ∃ v, readWindow w now u = .ok v ∧ R t v := by
  have hdrain : ∀ n w all s u, R s u → drain n w now all s = .ok t → ∃ v, drain n w now all u = .ok v ∧ R t v := by
    intro n
    induction n with
    | zero =>
      intro w all s u _ ht
      cases ht
    | succ n ih =>
      intro w all s u h ht
      obtain ⟨s₁, hs₁⟩ := correlate_ok w now s
      obtain ⟨u₁, hu₁, h₁⟩ := step h hs₁
      simp only [drain, hs₁, hu₁, hR.out h₁] at ht ⊢
      split_ifs at ht ⊢
      · cases ht
        exact ⟨_, rfl, hR.setOut _ h₁⟩
      · exact ih _ _ _ _ h₁ ht
  have hbound : drainBound u w = drainBound s w := by simp [drainBound, hR.asm h]
  unfold Machine.readWindow at ht ⊢
  split_ifs at ht ⊢
  · cases ht
    exact ⟨_, rfl, hR.setOut _ h⟩
  · rw [hbound]
    exact hdrain _ _ _ _ _ h ht

/-- A command keeps such a relation if every STEP does and, where it is CFGW, CFGR or RESET, it does itself. -/
theorem Unseen.exec_command
    (step : ∀ {w now s u t}, R s u → correlate w now s = .ok t → ∃ v, correlate w now u = .ok v ∧ R t v)
    {i : Instr} {s u t : State} (hi : i.isCommand = true) (h : R s u) (ht : exec i s = .next t)
    (control : (∃ idx x, i = .cfgw idx x) ∨ (∃ idx, i = .cfgr idx) ∨ i = .reset → ∃ v, exec i u = .next v ∧ R t v) :
    ∃ v, exec i u = .next v ∧ R t v := by
  rcases command_cases hi with ⟨w, now, rfl⟩ | ⟨w, now, rfl⟩ | hcfgw | hcfgr | hreset | hdata
  · obtain ⟨v, hv, htv⟩ := step h (outcome_eq_next.mp ht)
    exact ⟨v, outcome_eq_next.mpr hv, htv⟩
  · obtain ⟨v, hv, htv⟩ := hR.readWindow step h (outcome_eq_next.mp ht)
    exact ⟨v, outcome_eq_next.mpr hv, htv⟩
  · exact control (.inl hcfgw)
  · exact control (.inr (.inl hcfgr))
  · exact control (.inr (.inr hreset))
  · exact hR.dataCommand hdata h ht

end Unseen

end Sys2Proof.Machine
end

section
/-! PROOFS. The statements about the state (10_state.md). -/

namespace Sys2Proof.Machine

/-! ### The pending request's unspecified fields -/

/-- `u` is `s` but for pending fields that are unspecified: the other pending fields may differ while no request is pending
(10_state.md R24). -/
def SameButIdlePend (s u : State) : Prop :=
  ∃ p : Pending, p.valid = s.pend.valid ∧ (s.pend.valid = true → p = s.pend) ∧ u = { s with pend := p }

theorem SameButIdlePend.refl (s : State) : SameButIdlePend s s := ⟨s.pend, rfl, fun _ => rfl, rfl⟩

theorem SameButIdlePend.eq_of_valid {s u : State} (h : SameButIdlePend s u) (hv : s.pend.valid = true) : u = s := by
  obtain ⟨p, -, hp, rfl⟩ := h
  rw [hp hv]

theorem unseen_sameButIdlePend : Unseen SameButIdlePend where
  store := by rintro s u ⟨p, -, -, rfl⟩; rfl
  order := by rintro s u ⟨p, -, -, rfl⟩; rfl
  asm := by rintro s u ⟨p, -, -, rfl⟩; rfl
  out := by rintro s u ⟨p, -, -, rfl⟩; rfl
  write := by rintro s u st o ⟨p, hvalid, hp, rfl⟩; exact ⟨p, hvalid, hp, rfl⟩

/-- A capture overwrites every pending field; the other classes of Idle leave them all. -/
theorem SameButIdlePend.idleStep {s u : State} (h : SameButIdlePend s u) (w : Window) (now : Nat) :
    SameButIdlePend (idleStep w now s) (idleStep w now u) := by
  obtain ⟨p, hvalid, hp, rfl⟩ := h
  unfold Machine.idleStep
  cases decodeIdle w with
  | request q rest =>
    have hcapture : capture q rest now { s with pend := p } = capture q rest now s := by
      unfold capture checkRequestCrc State.emitIf
      split_ifs <;> rfl
    dsimp only
    rw [hcapture]
    exact .refl _
  | _ => exact ⟨p, hvalid, hp, rfl⟩

theorem SameButIdlePend.correlate {w : Window} {now : Nat} {s u t : State} (h : SameButIdlePend s u)
    (ht : correlate w now s = .ok t) : ∃ v, correlate w now u = .ok v ∧ SameButIdlePend t v := by
  by_cases hv : s.pend.valid = true
  · rw [h.eq_of_valid hv]
    exact ⟨t, ht, .refl t⟩
  · have idle : ∀ r : State, ¬r.pend.valid = true → Machine.correlate w now r = .ok (Machine.idleStep w now r.clearOut) :=
      fun r hr => by simp [Machine.correlate, State.timedOut, hr]
    have hu : ¬u.pend.valid = true := by
      obtain ⟨p, hvalid, -, rfl⟩ := h
      exact hvalid ▸ hv
    cases (idle s hv).symm.trans ht
    exact ⟨_, idle u hu, (unseen_sameButIdlePend.setOut Ports.default h).idleStep w now⟩

/-- No command sees the unspecified pending fields. -/
theorem SameButIdlePend.exec_command {i : Instr} {s u t : State} (hi : i.isCommand = true) (h : SameButIdlePend s u)
    (ht : exec i s = .next t) : ∃ v, exec i u = .next v ∧ SameButIdlePend t v := by
  refine unseen_sameButIdlePend.exec_command SameButIdlePend.correlate hi h ht ?_
  obtain ⟨p, hvalid, hp, rfl⟩ := h
  rintro (⟨idx, x, rfl⟩ | ⟨idx, rfl⟩ | rfl)
  · rcases exec_cfgw_cases idx x with ⟨-, hrun⟩ | ⟨-, hrun⟩ | ⟨-, -, hrun⟩
    all_goals
      cases (hrun s).symm.trans ht
      exact ⟨_, hrun _, p, hvalid, hp, rfl⟩
  · rcases exec_cfgr_cases idx with ⟨-, hrun⟩ | ⟨-, hrun⟩ | ⟨-, hrun⟩ | ⟨-, -, -, hrun⟩
    all_goals
      cases (hrun s).symm.trans ht
      exact ⟨_, hrun _, p, hvalid, hp, rfl⟩
  · exact ⟨t, ht, .refl t⟩

/-- Settles O33: the relation `SameButIdlePend` is kept by every command. -/
theorem unspecifiedPendingFieldsAreNeverRead : Obligations.UnspecifiedPendingFieldsAreNeverRead := by
  intro s t p hvalid hp ht
  rcases step_cases ht with ⟨hc, rfl⟩ | ⟨c, rest, hc, hrun⟩
  · exact ⟨p, hvalid, hp, step_of_nil hc⟩
  · have h : SameButIdlePend { s with cmds := rest } { s with pend := p, cmds := rest } := ⟨p, hvalid, hp, rfl⟩
    obtain ⟨_, hv, q, hqvalid, hq, rfl⟩ := h.exec_command (decodeCommand_isCommand c) hrun
    exact ⟨q, hqvalid, hq, (step_of_cons (s := { s with pend := p }) hc).trans hv⟩

/-! ### DEBUG -/

/-- The state with another DEBUG bit. -/
def State.setDebug (s : State) (b : Bool) : State := { s with cfg := { s.cfg with debug := b } }

/-- `u` is `s` but for the DEBUG bit. -/
def SameButDebug (s u : State) : Prop := ∃ b, u = s.setDebug b

theorem unseen_sameButDebug : Unseen SameButDebug where
  store := by rintro s u ⟨b, rfl⟩; rfl
  order := by rintro s u ⟨b, rfl⟩; rfl
  asm := by rintro s u ⟨b, rfl⟩; rfl
  out := by rintro s u ⟨b, rfl⟩; rfl
  write := by rintro s u st o ⟨b, rfl⟩; exact ⟨b, rfl⟩

theorem emitIf_setDebug (s : State) (b c : Bool) (e : Event) :
    (s.setDebug b).emitIf c e = (s.emitIf c e).setDebug b := by
  cases c <;> rfl

theorem capture_setDebug (q : RequestFrame) (rest : Window) (now : Nat) (s : State) (b : Bool) :
    capture q rest now (s.setDebug b) = (capture q rest now s).setDebug b := by
  simp only [capture, checkRequestCrc, emitIf_setDebug]
  rfl

theorem idleStep_setDebug (w : Window) (now : Nat) (s : State) (b : Bool) :
    idleStep w now (s.setDebug b) = (idleStep w now s).setDebug b := by
  unfold idleStep
  cases decodeIdle w with
  | request q rest => exact capture_setDebug q rest now s b
  | _ => rfl

theorem extend_setDebug (d : Byte) (req : Nat) (s : State) (b : Bool) :
    extend d req (s.setDebug b) = (extend d req s).setDebug b := by
  obtain ⟨hframe, -⟩ := extend_spec d req s
  rw [extend_of_store (u := s.setDebug b) (s := s) rfl, hframe]
  rfl

theorem storeWrite_setDebug {d : Byte} {a : Nat} {x : Byte} {s t : State} (b : Bool) (h : storeWrite d a x s = .ok t) :
    storeWrite d a x (s.setDebug b) = .ok (t.setDebug b) := by
  have hbuffer : (s.setDebug b).buffer? d = s.buffer? d := rfl
  unfold storeWrite at h ⊢
  rw [hbuffer]
  cases hb : s.buffer? d with
  | none => simp [hb] at h
  | some buf =>
    simp only [hb] at h ⊢
    split_ifs at h ⊢
    cases h
    rfl

theorem writeBelow_setDebug {d : Byte} {L a : Nat} {xs : Window} {s t : State} (b : Bool)
    (h : writeBelow d L a xs s = .ok t) : writeBelow d L a xs (s.setDebug b) = .ok (t.setDebug b) := by
  induction xs generalizing a s with
  | nil =>
    cases h
    rfl
  | cons x xs ih =>
    simp only [writeBelow] at h ⊢
    split_ifs at h ⊢
    · cases hw : storeWrite d a x s with
      | error f => simp [hw] at h
      | ok s₁ =>
        simp only [hw, storeWrite_setDebug b hw] at h ⊢
        exact ih h
    · exact ih h

theorem writeClipped_setDebug {d : Byte} {base : Nat} {x : Window} {s t : State} (b : Bool)
    (h : writeClipped d base x s = .ok t) : writeClipped d base x (s.setDebug b) = .ok (t.setDebug b) := by
  have hlen : (s.setDebug b).len d = s.len d := rfl
  unfold writeClipped at h ⊢
  rw [hlen]
  cases hw : writeBelow d (s.len d) base x s with
  | error f => simp [hw] at h
  | ok s₁ =>
    simp only [hw, writeBelow_setDebug b hw] at h ⊢
    cases h
    rw [emitIf_setDebug]

theorem complete_setDebug {r : ResponseFrame} {rest : Window} {s t : State} (b : Bool) (h : complete r rest s = .ok t) :
    complete r rest (s.setDebug b) = .ok (t.setDebug b) := by
  have hcheck : checkLength r (checkResponseCrc r (s.setDebug b)) = (checkLength r (checkResponseCrc r s)).setDebug b := by
    rw [checkResponseCrc, emitIf_setDebug]
    exact emitIf_setDebug _ _ _ _
  unfold complete at h ⊢
  rw [hcheck]
  generalize checkLength r (checkResponseCrc r s) = s₁ at h ⊢
  cases hw : writeResponse r s₁ with
  | error f => simp [hw] at h
  | ok s₂ =>
    have hw' : writeResponse r (s₁.setDebug b) = .ok (s₂.setDebug b) := by
      unfold writeResponse at hw ⊢
      rw [extend_setDebug]
      exact writeClipped_setDebug b hw
    simp only [hw, hw'] at h ⊢
    cases h
    rfl

theorem awaitStep_setDebug {w : Window} {s t : State} (b : Bool) (h : awaitStep w s = .ok t) :
    awaitStep w (s.setDebug b) = .ok (t.setDebug b) := by
  have hasm : (s.setDebug b).asm = s.asm := rfl
  unfold awaitStep at h ⊢
  rw [hasm]
  cases hd : decodeAwait (s.asm ++ w) with
  | response r rest =>
    rw [hd] at h
    exact complete_setDebug b h
  | _ =>
    rw [hd] at h
    cases h
    rfl

theorem correlate_setDebug {w : Window} {now : Nat} {s t : State} (b : Bool) (h : correlate w now s = .ok t) :
    correlate w now (s.setDebug b) = .ok (t.setDebug b) := by
  have htimedOut : (s.setDebug b).timedOut now = s.timedOut now := rfl
  have hpend : (s.setDebug b).pend = s.pend := rfl
  unfold correlate at h ⊢
  rw [htimedOut, hpend]
  split_ifs at h ⊢
  · cases h
    exact congrArg Except.ok (idleStep_setDebug w now s.clearOut.timeout b)
  · exact awaitStep_setDebug (s := s.clearOut) b h
  · cases h
    exact congrArg Except.ok (idleStep_setDebug w now s.clearOut b)

theorem SameButDebug.correlate {w : Window} {now : Nat} {s u t : State} (h : SameButDebug s u)
    (ht : correlate w now s = .ok t) : ∃ v, correlate w now u = .ok v ∧ SameButDebug t v := by
  obtain ⟨b, rfl⟩ := h
  exact ⟨_, correlate_setDebug b ht, b, rfl⟩

/-- No command but the CFGR of DEBUG sees the DEBUG bit. -/
theorem SameButDebug.exec_command {i : Instr} {s u t : State} (hi : i.isCommand = true) (hne : i ≠ .cfgr 0x0001)
    (h : SameButDebug s u) (ht : exec i s = .next t) : ∃ v, exec i u = .next v ∧ SameButDebug t v := by
  refine unseen_sameButDebug.exec_command SameButDebug.correlate hi h ht ?_
  obtain ⟨b, rfl⟩ := h
  rintro (⟨idx, x, rfl⟩ | ⟨idx, rfl⟩ | rfl)
  · rcases exec_cfgw_cases idx x with ⟨-, hrun⟩ | ⟨-, hrun⟩ | ⟨-, -, hrun⟩
    all_goals
      cases (hrun s).symm.trans ht
      exact ⟨_, hrun _, _, rfl⟩
  · rcases exec_cfgr_cases idx with ⟨-, hrun⟩ | ⟨rfl, -⟩ | ⟨-, hrun⟩ | ⟨-, -, -, hrun⟩
    case inr.inl => exact absurd rfl hne
    all_goals
      cases (hrun s).symm.trans ht
      exact ⟨_, hrun _, b, rfl⟩
  · exact ⟨t, ht, t.cfg.debug, rfl⟩

/-- No frame class sees the DEBUG bit. -/
theorem exec_frame_setDebug {i : Instr} {s t : State} (b : Bool) (hi : i.isCommand = false) (ht : exec i s = .next t) :
    exec i (s.setDebug b) = .next (t.setDebug b) := by
  cases i with
  | wRequest q rest now =>
    cases ht
    exact congrArg Host.Outcome.next (capture_setDebug q rest now s b)
  | aResponse r rest => exact outcome_eq_next.mpr (complete_setDebug b (outcome_eq_next.mp ht))
  | wEmpty | wShort | wExceptionIdle | wNoise | aHoldShort | aException | aHoldIncomplete =>
    cases ht
    rfl
  | _ => cases hi

/-- Settles O34: the relation `SameButDebug` is kept by every instruction but the CFGR of DEBUG. -/
theorem debugAffectsNothingButItsOwnRead : Obligations.DebugAffectsNothingButItsOwnRead := by
  intro i s t b hne ht
  cases hi : i.isCommand with
  | true =>
    obtain ⟨_, hv, b', rfl⟩ := SameButDebug.exec_command hi hne ⟨b, rfl⟩ ht
    exact ⟨b', hv⟩
  | false => exact ⟨b, exec_frame_setDebug b hi ht⟩

/-! ### The assembly buffer -/

/-- What a STEP may do keeps the rules of the assembly buffer (10_state.md R27, R28). -/
theorem PendStep.asmOk {s t : State} {evs : List Event} (h : PendStep s.pend s.asm evs t) (hs : s.asmOk = true) :
    t.asmOk = true := by
  cases h with
  | idle hv hp ha => simpa only [State.asmOk, hp, ha] using hs
  | held hv hp ha => simpa [State.asmOk, hp, hv] using ha
  | captured ht ha => simp [State.asmOk, ht, ha, incomplete]
  | dropped hv ht ha => simp [State.asmOk, ht, ha]

theorem exec_command_keeps_asmOk {i : Instr} {s t : State} (hi : i.isCommand = true) (h : exec i s = .next t)
    (hs : s.asmOk = true) : t.asmOk = true := by
  have hstep := exec_command_of_step (T := fun s _ t => s.asmOk = true → t.asmOk = true)
    (fun hp ha _ hs => by simpa only [State.asmOk, hp, ha] using hs) (fun h₁ h₂ hs => h₂ (h₁ hs))
    (fun h => (correlate_pend h).asmOk) hi h
  rcases hstep with rfl | hkept
  · cases (exec_reset s).symm.trans h
    rfl
  · exact hkept hs

theorem step_keeps_asmOk {s t : State} (h : step s = .next t) (hs : s.asmOk = true) : t.asmOk = true := by
  rcases step_cases h with ⟨-, rfl⟩ | ⟨c, rest, -, hrun⟩
  · exact hs
  · exact exec_command_keeps_asmOk (decodeCommand_isCommand c) hrun hs

theorem asm_length_le_of_asmOk {s : State} (h : s.asmOk = true) : s.asm.length ≤ 259 := by
  unfold State.asmOk at h
  split_ifs at h
  · exact length_le_of_incomplete h
  · simp [of_decide_eq_true h]

/-- Settles O30: every step keeps `State.asmOk`, which bounds the buffer. -/
theorem assemblyBufferStaysBounded : Obligations.AssemblyBufferStaysBounded := by
  intro s t hs ht
  simp only [State.inv, Bool.and_eq_true] at hs
  obtain ⟨⟨-, hasm⟩, -⟩ := hs
  exact asm_length_le_of_asmOk (step_keeps_asmOk ht hasm)

/-! ### The lengths of the store -/

/-- A known device of a well-formed store has a legal length (10_state.md R29). -/
theorem legalLen_of_alloc {s : State} (hs : Store.wf s.store = true) {d : Byte} (h : s.alloc d = true) :
    legalLen (s.len d) = true := by
  obtain ⟨b, hb⟩ := Option.isSome_iff_exists.mp h
  have hwf := Store.wf_buffer hs hb
  simp only [Buffer.wf, Bool.and_eq_true] at hwf
  obtain ⟨⟨hlegal, -⟩, -⟩ := hwf
  rw [len_of_buffer hb]
  exact hlegal

theorem len_of_not_alloc {s : State} {d : Byte} (h : s.alloc d = false) : s.len d = 0 :=
  len_of_unknown (by simpa [alloc_eq] using h)

/-- A step that is not RESET shrinks no buffer and forgets no device. -/
theorem step_storeGrows {s t : State} (h : step s = .next t)
    (hne : ∀ c rest, s.cmds = c :: rest → decodeCommand c ≠ .reset) : StoreGrows s t := by
  rcases step_cases h with ⟨-, rfl⟩ | ⟨c, rest, hc, hrun⟩
  · exact .of_store_eq rfl
  · have hstep := exec_command_of_step (T := fun s _ t => StoreGrows s t) (fun _ _ hg => hg) .trans correlate_storeGrows
      (decodeCommand_isCommand c) hrun
    exact hstep.resolve_left (hne c rest hc)

/-- Settles O31: legal lengths by the store's canonical form, growth by `StoreGrows`. -/
theorem storeLengthsAreLegalAndNeverShrink : Obligations.StoreLengthsAreLegalAndNeverShrink := by
  refine ⟨fun s hs d => ?_, fun s t ht hne => step_storeGrows ht hne⟩
  simp only [State.inv, Bool.and_eq_true] at hs
  obtain ⟨⟨hstore, -⟩, -⟩ := hs
  refine ⟨len_of_not_alloc, fun ha => (legalLen_iff _).mp (legalLen_of_alloc hstore ha), fun a => ?_⟩
  rw [byte?_isSome, decide_eq_true_eq]

/-! ### The pending request -/

/-- What sets and clears `pend.valid`, and when a pending request keeps its fields, by the events reported in between
(10_state.md R24, R26). -/
structure PendLifetime (s : State) (evs : List Event) (t : State) : Prop where
  set : s.pend.valid = false → t.pend.valid = true → ∃ e ∈ evs, e.code = 9
  cleared : s.pend.valid = true → t.pend.valid = false →
    ∃ e ∈ evs, e.code = 7 ∨ (e.code = 5 ∧ e.b = 1) ∨ e.code = 10
  kept : t.pend.valid = true → (∀ e ∈ evs, e.code ≠ 9) → t.pend = s.pend

theorem PendLifetime.of_pend_eq {s t : State} {evs : List Event} (h : t.pend = s.pend) : PendLifetime s evs t where
  set hs ht := by simp [h, hs] at ht
  cleared hs ht := by simp [h, hs] at ht
  kept _ _ := h

theorem PendLifetime.of_pendStep {s t : State} {evs : List Event} (h : PendStep s.pend s.asm evs t) :
    PendLifetime s evs t := by
  cases h with
  | idle _ hp _ => exact .of_pend_eq hp
  | held _ hp _ => exact .of_pend_eq hp
  | captured ht _ he =>
    obtain ⟨e, hmem, hcode⟩ := he
    exact ⟨fun _ _ => ⟨e, hmem, hcode⟩, fun _ hf => by simp [ht] at hf, fun _ hno => absurd hcode (hno e hmem)⟩
  | dropped hs ht _ he => exact ⟨fun _ hv => by simp [ht] at hv, fun _ _ => he, fun hv => by simp [ht] at hv⟩

theorem PendLifetime.trans {s t u : State} {e₁ e₂ : List Event} (h₁ : PendLifetime s e₁ t) (h₂ : PendLifetime t e₂ u) :
    PendLifetime s (e₁ ++ e₂) u where
  set hs hu := by
    cases ht : t.pend.valid with
    | true =>
      obtain ⟨e, hmem, hcode⟩ := h₁.set hs ht
      exact ⟨e, List.mem_append_left _ hmem, hcode⟩
    | false =>
      obtain ⟨e, hmem, hcode⟩ := h₂.set ht hu
      exact ⟨e, List.mem_append_right _ hmem, hcode⟩
  cleared hs hu := by
    cases ht : t.pend.valid with
    | true =>
      obtain ⟨e, hmem, hcode⟩ := h₂.cleared ht hu
      exact ⟨e, List.mem_append_right _ hmem, hcode⟩
    | false =>
      obtain ⟨e, hmem, hcode⟩ := h₁.cleared hs ht
      exact ⟨e, List.mem_append_left _ hmem, hcode⟩
  kept hu hno := by
    have hut : u.pend = t.pend := h₂.kept hu fun e he => hno e (List.mem_append_right _ he)
    exact hut.trans (h₁.kept (hut ▸ hu) fun e he => hno e (List.mem_append_left _ he))

/-- Settles O32: `PendLifetime` holds of every STEP and composes over READ; no other command but RESET touches the request. -/
theorem pendingRequestLifetime : Obligations.PendingRequestLifetime := by
  intro i s t hi ht
  have hstep := exec_command_of_step (T := PendLifetime) (fun hp _ _ => .of_pend_eq hp) .trans
    (fun h => .of_pendStep (correlate_pend h)) hi ht
  rcases hstep with rfl | h
  · cases (exec_reset s).symm.trans ht
    exact ⟨fun _ hv => absurd hv Bool.false_ne_true, fun _ _ => .inl rfl, fun hv => absurd hv Bool.false_ne_true⟩
  · exact ⟨h.set, fun hs hv => .inr (h.cleared hs hv), h.kept⟩

/-! ### Configuration and reset -/

/-- The value CFGR gives for DEBUG is bit 0 of the word CFGW wrote. -/
theorem ite_getLsbD_zero (v : Word) : (if v.getLsbD 0 then 1 else 0) = v &&& 1 := by
  have hand : v &&& 1 = (BitVec.ofBool (v.getLsbD 0)).setWidth 32 := BitVec.and_one_eq_setWidth_ofBool_getLsbD
  rw [hand]
  cases v.getLsbD 0 <;> rfl

/-- Settles O54, by what CFGW writes and what CFGR reads. -/
theorem configurationReadsBack : Obligations.ConfigurationReadsBack := by
  refine fun v s t => ⟨fun ht => ?_, fun ht => ?_⟩
  · cases ht
    rfl
  · cases ht
    rw [← ite_getLsbD_zero]
    rfl

/-- Settles O55: both states are `State.reset` in every field the statement reads. -/
theorem resetEstablishesTheResetState : Obligations.ResetEstablishesTheResetState := by
  have htimeout : Cfg.reset.reqTimeout.toNat = min (64 * Config.interFrameTimeout) (2 ^ 32 - 1) := by
    have hlt : min Config.requestTimeoutReset (2 ^ 32 - 1) < 2 ^ 32 := by omega
    rw [Cfg.reset, BitVec.toNat_ofNat, Nat.mod_eq_of_lt hlt]
    rfl
  refine ⟨rfl, fun s => ⟨_, exec_reset s, rfl, rfl, ?_⟩⟩
  rintro u (rfl | rfl) <;> exact ⟨rfl, rfl, rfl, htimeout, fun d => ⟨rfl, rfl, fun a => rfl⟩⟩

end Sys2Proof.Machine
end

section
/-! SUPPORT. What the decoders answer to a frame's own bytes, and the numbers and bits of the byte-order helpers. -/

namespace Sys2Proof

/-! ### Numbers and bits of the byte-order helpers (20_memory.md R47, R49) -/

theorem toNat_be16 (b0 b1 : Byte) : (be16 b0 b1).toNat = b0.toNat * 256 + b1.toNat := by
  rw [be16, BitVec.toNat_append, ← Nat.shiftLeft_add_eq_or_of_lt b1.isLt, Nat.shiftLeft_eq]

theorem toNat_le16 (b0 b1 : Byte) : (le16 b0 b1).toNat = b0.toNat + b1.toNat * 256 := by
  rw [Nat.add_comm]
  exact toNat_be16 b1 b0

/-- A 32-bit little-endian value is made of the two 16-bit ones, the low half first (R51). -/
theorem le32_eq_append (b0 b1 b2 b3 : Byte) : le32 b0 b1 b2 b3 = le16 b2 b3 ++ le16 b0 b1 := rfl

theorem toNat_le32 (b0 b1 b2 b3 : Byte) :
    (le32 b0 b1 b2 b3).toNat = (le16 b0 b1).toNat + (le16 b2 b3).toNat * 65536 := by
  rw [le32_eq_append, BitVec.toNat_append, ← Nat.shiftLeft_add_eq_or_of_lt (le16 b0 b1).isLt, Nat.shiftLeft_eq, Nat.add_comm]

/-- The bits of a 16-bit little-endian value, byte by byte. -/
theorem getLsbD_le16 (b0 b1 : Byte) {i : Nat} (hi : i < 8) :
    (le16 b0 b1).getLsbD i = b0.getLsbD i ∧ (le16 b0 b1).getLsbD (8 + i) = b1.getLsbD i := by
  constructor
  · rw [le16, BitVec.getLsbD_append, if_pos hi]
  · rw [le16, BitVec.getLsbD_append, if_neg (by omega), Nat.add_sub_cancel_left]

/-- The bits of a 32-bit little-endian value, byte by byte. -/
theorem getLsbD_le32 (b0 b1 b2 b3 : Byte) {i : Nat} (hi : i < 8) :
    (le32 b0 b1 b2 b3).getLsbD i = b0.getLsbD i ∧ (le32 b0 b1 b2 b3).getLsbD (8 + i) = b1.getLsbD i ∧
      (le32 b0 b1 b2 b3).getLsbD (16 + i) = b2.getLsbD i ∧ (le32 b0 b1 b2 b3).getLsbD (24 + i) = b3.getLsbD i := by
  obtain ⟨h0, h1⟩ := getLsbD_le16 b0 b1 hi
  obtain ⟨h2, h3⟩ := getLsbD_le16 b2 b3 hi
  have low : ∀ k, k < 16 → (le32 b0 b1 b2 b3).getLsbD k = (le16 b0 b1).getLsbD k := fun k hk => by
    rw [le32_eq_append, BitVec.getLsbD_append, if_pos hk]
  have high : ∀ k, (le32 b0 b1 b2 b3).getLsbD (16 + k) = (le16 b2 b3).getLsbD k := fun k => by
    rw [le32_eq_append, BitVec.getLsbD_append, if_neg (by omega), Nat.add_sub_cancel_left]
  refine ⟨(low i (by omega)).trans h0, (low (8 + i) (by omega)).trans h1, (high i).trans h2, ?_⟩
  rw [show 24 + i = 16 + (8 + i) by omega, high, h3]

/-- The big-endian value of four bytes is the little-endian value of their reversal. -/
theorem be32_eq_le32 (b0 b1 b2 b3 : Byte) : be32 b0 b1 b2 b3 = le32 b3 b2 b1 b0 := rfl

/-! ### Decoding a frame's own bytes (30_encoding.md R71, R72) -/

theorem isExceptionCode_eq_false_iff (fc : Byte) : isExceptionCode fc = false ↔ fc.toNat ≤ 0x80 := by
  rw [← Bool.not_eq_true, isExceptionCode_iff]
  omega

theorem decodeIdle_exception {e : ExceptionFrame} (he : isExceptionCode e.fc = true) (rest : Window) :
    decodeIdle (e.bytes ++ rest) = .exception e rest := by
  have hne : e.fc ≠ 0x04 := fun h => by simp [h, isExceptionCode] at he
  simp [ExceptionFrame.bytes, decodeIdle_of_ne hne, he]

theorem decodeAwait_exception {e : ExceptionFrame} (he : isExceptionCode e.fc = true) (rest : Window) :
    decodeAwait (e.bytes ++ rest) = .exception e rest := by
  simp [ExceptionFrame.bytes, decodeAwait, he]

/-- The byte count of a response with at most 255 data bytes is the number of its data bytes (R66). -/
theorem toNat_byteCount {data : Window} (h : data.length ≤ 255) : (BitVec.ofNat 8 data.length).toNat = data.length := by
  rw [BitVec.toNat_ofNat, Nat.mod_eq_of_lt (by omega)]

theorem decodeAwait_response {r : ResponseFrame} (hfc : isExceptionCode r.fc = false) (hlen : r.data.length ≤ 255)
    (rest : Window) : decodeAwait (r.bytes ++ rest) = .response r rest := by
  obtain ⟨b3, b4, rest5, hbody⟩ :
      ∃ b3 b4 rest5, r.data ++ loByte r.crc :: hiByte r.crc :: rest = b3 :: b4 :: rest5 := by
    match r.data with
    | [] => exact ⟨_, _, _, rfl⟩
    | [_] => exact ⟨_, _, _, rfl⟩
    | _ :: _ :: _ => exact ⟨_, _, _, rfl⟩
  have hbytes : r.bytes ++ rest = r.dev :: r.fc :: BitVec.ofNat 8 r.data.length :: b3 :: b4 :: rest5 := by
    simp [ResponseFrame.bytes, ResponseFrame.head, hbody]
  have hdrop : (b3 :: b4 :: rest5).drop (BitVec.ofNat 8 r.data.length).toNat = loByte r.crc :: hiByte r.crc :: rest := by
    rw [toNat_byteCount hlen, ← hbody, List.drop_left]
  have htake : (b3 :: b4 :: rest5).take (BitVec.ofNat 8 r.data.length).toNat = r.data := by
    rw [toNat_byteCount hlen, ← hbody, List.take_left]
  simp only [hbytes, decodeAwait, hfc, hdrop, htake, le16_loByte_hiByte, Bool.false_eq_true, if_false]

end Sys2Proof
end

section
/-! SUPPORT. What an accessor's answer says of the store, and which fields an instruction leaves. -/

namespace Sys2Proof.Machine

/-! ### The accessors -/

/-- An accessor of width 2 writes the result ports alone. -/
theorem access2_frame {f : Byte → Byte → Word} {d : Byte} {idx : Half} {s t : State} (h : access2 f d idx s = .ok t) :
    t = { s with out := t.out } := by
  obtain ⟨v, hv, -⟩ := access2_spec f d idx s
  cases hv.symm.trans h
  rfl

/-- An accessor of width 4 writes the result ports alone. -/
theorem access4_frame {f : Byte → Byte → Byte → Byte → Word} {d : Byte} {idx : Half} {s t : State}
    (h : access4 f d idx s = .ok t) : t = { s with out := t.out } := by
  obtain ⟨v, hv, -⟩ := access4_spec f d idx s
  cases hv.symm.trans h
  rfl

/-- PRESENT of an accessor says whether its read was in range. -/
theorem access2_out_present {f : Byte → Byte → Word} {d : Byte} {idx : Half} {s t : State}
    (h : access2 f d idx s = .ok t) : t.out.present = s.inRange d idx 2 := by
  obtain ⟨v, hv, hsome⟩ := access2_spec f d idx s
  cases hv.symm.trans h
  rw [← hsome]
  cases v <;> rfl

/-- An accessor of width 2 that finds its register answers its two bytes, combined. -/
theorem access2_bytes {f : Byte → Byte → Word} {d : Byte} {idx : Half} {s t : State} (h : access2 f d idx s = .ok t)
    (hp : t.out.present = true) :
    ∃ b0 b1, s.byte? d (registerOffset idx) = some b0 ∧ s.byte? d (registerOffset idx + 1) = some b1 ∧
      t.out.res = f b0 b1 := by
  have hr : s.inRange d idx 2 = true := access2_out_present h ▸ hp
  obtain ⟨b0, h0⟩ := byte?_of_inRange hr (show 0 < 2 by omega)
  obtain ⟨b1, h1⟩ := byte?_of_inRange hr (show 1 < 2 by omega)
  cases (access2_present f h0 h1).symm.trans h
  exact ⟨b0, b1, h0, h1, rfl⟩

theorem registerOffset_succ {idx : Half} (h : idx.toNat < 65535) : registerOffset (idx + 1) = registerOffset idx + 2 := by
  have hsucc : (idx + 1).toNat = idx.toNat + 1 := by
    have hlt : idx.toNat + (1 : Half).toNat < 2 ^ 16 := by
      rw [show (1 : Half).toNat = 1 from rfl]
      omega
    exact BitVec.toNat_add_of_lt hlt
  rw [registerOffset, hsucc, registerOffset, Nat.mul_add]

theorem toNat_resU16_le (b0 b1 : Byte) : (resU16 .le b0 b1).toNat = (le16 b0 b1).toNat :=
  BitVec.toNat_setWidth_of_le (by decide)

/-- No buffer of a well-formed store is longer than 65536 bytes (10_state.md R29). -/
theorem len_le_of_wf {s : State} (hs : Store.wf s.store = true) (d : Byte) : s.len d ≤ 65536 := by
  cases ha : s.alloc d with
  | false => simp [len_of_not_alloc ha]
  | true => exact ((legalLen_iff _).mp (legalLen_of_alloc hs ha)).2.2

/-- A read that ends past 65536 bytes is out of range (20_memory.md R57). -/
theorem inRange_eq_false_of_wf {s : State} (hs : Store.wf s.store = true) (d : Byte) {idx : Half} {n : Nat}
    (h : 65536 < registerOffset idx + n) : s.inRange d idx n = false := by
  have hlen := len_le_of_wf hs d
  have hout : ¬registerOffset idx + n ≤ s.len d := by omega
  simp [State.inRange, hout]

/-! ### The instructions that store nothing -/

/-- A capture writes the pending request, the assembly buffer and the result ports alone (41_correlator.md R101). -/
theorem capture_frame (q : RequestFrame) (rest : Window) (now : Nat) (s : State) :
    (capture q rest now s).store = s.store ∧ (capture q rest now s).cfg = s.cfg ∧
      (capture q rest now s).order = s.order ∧ (capture q rest now s).cmds = s.cmds := by
  simp [capture, checkRequestCrc]

theorem exec_keeps_store {i : Instr} {s t : State} (h : exec i s = .next t)
    (hcorrelator : ∀ w now, i ≠ .step w now ∧ i ≠ .read w now) (hextend : ∀ d n, i ≠ .extend d n) (hreset : i ≠ .reset)
    (hresponse : ∀ r rest, i ≠ .aResponse r rest) : t.store = s.store := by
  cases i with
  | step w now => exact absurd rfl (hcorrelator w now).1
  | read w now => exact absurd rfl (hcorrelator w now).2
  | extend d n => exact absurd rfl (hextend d n)
  | reset => exact absurd rfl hreset
  | aResponse r rest => exact absurd rfl (hresponse r rest)
  | geti16 | getu16 => rw [access2_frame (outcome_eq_next.mp h)]
  | getf32 | geti32 | getu32 => rw [access4_frame (outcome_eq_next.mp h)]
  | cfgw idx v =>
    rcases exec_cfgw_cases idx v with ⟨-, hrun⟩ | ⟨-, hrun⟩ | ⟨-, -, hrun⟩
    all_goals
      cases (hrun s).symm.trans h
      rfl
  | cfgr idx =>
    rcases exec_cfgr_cases idx with ⟨-, hrun⟩ | ⟨-, hrun⟩ | ⟨-, hrun⟩ | ⟨-, -, -, hrun⟩
    all_goals
      cases (hrun s).symm.trans h
      rfl
  | wRequest q rest now =>
    cases h
    exact (capture_frame q rest now s).1
  | crc16 | dump | illegal | wEmpty | wShort | wExceptionIdle | wNoise | aHoldShort | aException | aHoldIncomplete =>
    cases h
    rfl

/-! ### Who writes a register -/

/-- What the correlator never writes: the configuration registers, INT_BYTE_ORDER and the host's command stream. -/
structure SameControl (s t : State) : Prop where
  cfg : t.cfg = s.cfg
  order : t.order = s.order
  cmds : t.cmds = s.cmds

theorem SameControl.trans {s t u : State} (h₁ : SameControl s t) (h₂ : SameControl t u) : SameControl s u :=
  ⟨h₂.cfg.trans h₁.cfg, h₂.order.trans h₁.order, h₂.cmds.trans h₁.cmds⟩

theorem idleStep_sameControl (w : Window) (now : Nat) (s : State) : SameControl s (idleStep w now s) := by
  obtain ⟨-, hcfg, horder, hcmds⟩ := idleStep_frame w now s
  exact ⟨hcfg, horder, hcmds⟩

theorem complete_sameControl {r : ResponseFrame} {rest : Window} {s t : State} (h : complete r rest s = .ok t) :
    SameControl s t := by
  obtain ⟨u, hu, hframe, -⟩ := complete_spec r rest s
  cases hu.symm.trans h
  rw [hframe]
  exact ⟨rfl, rfl, rfl⟩

theorem awaitStep_sameControl {w : Window} {s t : State} (h : awaitStep w s = .ok t) : SameControl s t := by
  rcases awaitStep_cases w s with ⟨a, -, hrun⟩ | ⟨e, rest, -, hrun⟩ | ⟨r, rest, -, hrun⟩
  · cases hrun.symm.trans h
    exact ⟨rfl, rfl, rfl⟩
  · cases hrun.symm.trans h
    exact ⟨rfl, rfl, rfl⟩
  · exact complete_sameControl (hrun.symm.trans h)

theorem correlate_sameControl {w : Window} {now : Nat} {s t : State} (h : correlate w now s = .ok t) :
    SameControl s t := by
  rcases correlate_cases w now s with ⟨-, hrun⟩ | ⟨-, -, hrun⟩ | ⟨-, -, hrun⟩
  · cases hrun.symm.trans h
    exact .trans (t := s.clearOut.timeout) ⟨rfl, rfl, rfl⟩ (idleStep_sameControl _ _ _)
  · exact .trans (t := s.clearOut) ⟨rfl, rfl, rfl⟩ (awaitStep_sameControl (hrun.symm.trans h))
  · cases hrun.symm.trans h
    exact .trans (t := s.clearOut) ⟨rfl, rfl, rfl⟩ (idleStep_sameControl _ _ _)

theorem readWindow_sameControl {w : Window} {now : Nat} {s t : State} (h : readWindow w now s = .ok t) :
    SameControl s t :=
  readWindow_of_step (T := fun s _ t => SameControl s t) (fun _ => ⟨rfl, rfl, rfl⟩) .trans
    (fun _ h => ⟨h.cfg, h.order, h.cmds⟩) correlate_sameControl h

theorem exec_frame_sameControl {i : Instr} {s t : State} (hi : i.isCommand = false) (h : exec i s = .next t) :
    SameControl s t := by
  cases i with
  | wRequest q rest now =>
    cases h
    obtain ⟨-, hcfg, horder, hcmds⟩ := capture_frame q rest now s
    exact ⟨hcfg, horder, hcmds⟩
  | aResponse r rest => exact complete_sameControl (outcome_eq_next.mp h)
  | wEmpty | wShort | wExceptionIdle | wNoise | aHoldShort | aException | aHoldIncomplete =>
    cases h
    exact ⟨rfl, rfl, rfl⟩
  | _ => cases hi

/-- What a command outside the correlator that is not RESET writes: the store, the result ports and, if it is CFGW, the
configuration. -/
structure OutsideCorrelator (i : Instr) (s t : State) : Prop where
  frame : t = { s with store := t.store, cfg := t.cfg, out := t.out }
  cfg : (∀ idx v, i ≠ .cfgw idx v) → t.cfg = s.cfg

theorem exec_outsideCorrelator {i : Instr} {s t : State} (h : exec i s = .next t)
    (hi : (∃ idx v, i = .cfgw idx v) ∨ (∃ idx, i = .cfgr idx) ∨ isDataCommand i = true) :
    OutsideCorrelator i s t := by
  rcases hi with ⟨idx, v, rfl⟩ | ⟨idx, rfl⟩ | hdata
  · refine ⟨?_, fun hne => absurd rfl (hne idx v)⟩
    rcases exec_cfgw_cases idx v with ⟨-, hrun⟩ | ⟨-, hrun⟩ | ⟨-, -, hrun⟩
    all_goals
      cases (hrun s).symm.trans h
      rfl
  · rcases exec_cfgr_cases idx with ⟨-, hrun⟩ | ⟨-, hrun⟩ | ⟨-, hrun⟩ | ⟨-, -, -, hrun⟩
    all_goals
      cases (hrun s).symm.trans h
      exact ⟨rfl, fun _ => rfl⟩
  · obtain ⟨st, o, -, hrun⟩ := exec_dataCommand hdata s
    cases (hrun s rfl rfl).symm.trans h
    exact ⟨rfl, fun _ => rfl⟩

/-- Every instruction is one of the correlator (STEP, READ, a frame class), RESET, or a command outside the correlator. -/
theorem exec_register_cases {i : Instr} {s t : State} (h : exec i s = .next t) :
    (SameControl s t ∧ (i.isCommand = true → ∃ w now, i = .step w now ∨ i = .read w now)) ∨
    (i = .reset ∧ t.order = s.order ∧ t.cmds = s.cmds) ∨
    OutsideCorrelator i s t := by
  cases hi : i.isCommand with
  | false => exact .inl ⟨exec_frame_sameControl hi h, fun hc => absurd hc Bool.false_ne_true⟩
  | true =>
    rcases command_cases hi with ⟨w, now, rfl⟩ | ⟨w, now, rfl⟩ | hcfgw | hcfgr | rfl | hdata
    · exact .inl ⟨correlate_sameControl (outcome_eq_next.mp h), fun _ => ⟨w, now, .inl rfl⟩⟩
    · exact .inl ⟨readWindow_sameControl (outcome_eq_next.mp h), fun _ => ⟨w, now, .inr rfl⟩⟩
    · exact .inr (.inr (exec_outsideCorrelator h (.inl hcfgw)))
    · exact .inr (.inr (exec_outsideCorrelator h (.inr (.inl hcfgr))))
    · cases (exec_reset s).symm.trans h
      exact .inr (.inl ⟨rfl, rfl, rfl⟩)
    · exact .inr (.inr (exec_outsideCorrelator h (.inr (.inr hdata))))

end Sys2Proof.Machine
end

section
/-! PROOFS. The statements about memory (20_memory.md). -/

namespace Sys2Proof.Machine

/-- Settles O9: each window is the bytes of its frame, and the two bytes of a field make its number. -/
theorem wireFieldByteOrder : Obligations.WireFieldByteOrder := by
  refine ⟨fun b0 b2 b3 b4 b5 b6 b7 rest now => ?_, fun b0 b1 b2 b3 b4 rest now hb => ?_,
    fun b0 b1 lo hi data rest hb hlen => ?_⟩
  · exact ⟨⟨b0, be16 b2 b3, be16 b4 b5, le16 b6 b7⟩, rfl, rfl, toNat_be16 _ _, toNat_be16 _ _, toNat_le16 _ _⟩
  · let e : ExceptionFrame := ⟨b0, b1, b2, le16 b3 b4⟩
    have hfc : isExceptionCode e.fc = true := (isExceptionCode_iff b1).mpr hb
    have hbytes : b0 :: b1 :: b2 :: b3 :: b4 :: rest = e.bytes ++ rest := by simp [e, ExceptionFrame.bytes]
    refine ⟨e, rfl, rfl, rfl, toNat_le16 _ _, ?_, ?_⟩
    · rw [decode, hbytes, decodeIdle_exception hfc, IdleFrame.toInstr]
    · rw [decode, hbytes, decodeAwait_exception hfc, AwaitFrame.toInstr]
  · let r : ResponseFrame := ⟨b0, b1, data, le16 lo hi⟩
    have hfc : isExceptionCode r.fc = false := (isExceptionCode_eq_false_iff b1).mpr hb
    have hbytes : b0 :: b1 :: BitVec.ofNat 8 data.length :: (data ++ lo :: hi :: rest) = r.bytes ++ rest := by
      simp [r, ResponseFrame.bytes, ResponseFrame.head]
    refine ⟨r, rfl, rfl, rfl, toNat_le16 _ _, ?_⟩
    rw [decode, hbytes, decodeAwait_response hfc hlen, AwaitFrame.toInstr]

/-- Settles O35: such an instruction leaves the store, and the views depend on the store alone. -/
theorem onlyStoringInstructionsTouchTheStore : Obligations.OnlyStoringInstructionsTouchTheStore := by
  intro i s t h hcorrelator hextend hreset hresponse d
  have hstore : t.store = s.store := exec_keeps_store h hcorrelator hextend hreset hresponse
  exact ⟨State.alloc_congr hstore d, State.len_congr hstore d, State.byte?_congr hstore d⟩

/-- Settles O36, by the three kinds of instruction. -/
theorem registersChangeOnlyByTheirWriters : Obligations.RegistersChangeOnlyByTheirWriters := by
  intro i s t h
  rcases exec_register_cases h with ⟨hsame, hcorrelator⟩ | ⟨rfl, horder, hcmds⟩ | ⟨hframe, hcfg⟩
  · refine ⟨hsame.cmds, hsame.order, fun _ _ => hsame.cfg, fun hi hne _ => ?_⟩
    obtain ⟨w, now, rfl | rfl⟩ := hcorrelator hi
    · exact absurd rfl (hne w now).1
    · exact absurd rfl (hne w now).2
  · exact ⟨hcmds, horder, fun _ hne => absurd rfl hne, fun _ _ hne => absurd rfl hne⟩
  · exact ⟨by rw [hframe], by rw [hframe], fun hne _ => hcfg hne, fun _ _ _ => ⟨by rw [hframe], by rw [hframe]⟩⟩

/-- Settles O48: the two registers give four present bytes, and each read is a combination of them. -/
theorem mixedWidthViewsAgree : Obligations.MixedWidthViewsAgree := by
  intro d idx s t₀ t₁ t f horder hidx h₀ h₁ ht hf hp₀ hp₁
  obtain ⟨b0, b1, hb0, hb1, hres₀⟩ := access2_bytes (outcome_eq_next.mp h₀) hp₀
  obtain ⟨b2, b3, hb2, hb3, hres₁⟩ := access2_bytes (outcome_eq_next.mp h₁) hp₁
  rw [registerOffset_succ hidx] at hb2 hb3
  cases (access4_present (resU32 s.order) hb0 hb1 hb2 hb3).symm.trans (outcome_eq_next.mp ht)
  cases (access4_present resF32 hb0 hb1 hb2 hb3).symm.trans (outcome_eq_next.mp hf)
  have hu : resU32 s.order b0 b1 b2 b3 = le32 b0 b1 b2 b3 := by rw [horder]; rfl
  have hreversed : resF32 b0 b1 b2 b3 = le32 b3 b2 b1 b0 := be32_eq_le32 b0 b1 b2 b3
  have hbits {i : Nat} (hi : i < 8) := And.intro (getLsbD_le32 b0 b1 b2 b3 hi) (getLsbD_le32 b3 b2 b1 b0 hi)
  refine ⟨rfl, rfl, ?_, fun i hi => ?_, fun i hi => ?_, fun i hi => ?_, fun i hi => ?_⟩
  · rw [hres₀, hres₁, horder, toNat_resU16_le, toNat_resU16_le, ← toNat_le32]
    rfl
  all_goals
    obtain ⟨⟨h0, h1, h2, h3⟩, g3, g2, g1, g0⟩ := hbits hi
    simp only [presentPorts, hu, hreversed, h0, h1, h2, h3, g0, g1, g2, g3]

/-- Settles O51: such a read ends past byte 65536, where every buffer has ended. -/
theorem registersFrom32768AreAbsent : Obligations.RegistersFrom32768AreAbsent := by
  intro d idx s hs
  simp only [State.inv, Bool.and_eq_true] at hs
  obtain ⟨⟨hstore, -⟩, -⟩ := hs
  constructor
  · intro hidx
    have hout : s.inRange d idx 2 = false := inRange_eq_false_of_wf hstore d (by unfold registerOffset; omega)
    exact ⟨outcome_eq_next.mpr (access2_absent _ hout), outcome_eq_next.mpr (access2_absent _ hout)⟩
  · intro hidx
    have hout : s.inRange d idx 4 = false := inRange_eq_false_of_wf hstore d (by unfold registerOffset; omega)
    exact ⟨outcome_eq_next.mpr (access4_absent _ hout), outcome_eq_next.mpr (access4_absent _ hout),
      outcome_eq_next.mpr (access4_absent _ hout)⟩

end Sys2Proof.Machine
end

section
/-! SUPPORT. The command word as a number and what its OP selects, what makes a window a frame's bytes, and the events a command
returns. -/

namespace Sys2Proof

/-! ### The command word (30_encoding.md R76, R78) -/

/-- Concatenation as a number: the left word stands above the `n` bits of the right one. -/
theorem toNat_append_eq {m n : Nat} (x : BitVec m) (y : BitVec n) : (x ++ y).toNat = x.toNat * 2 ^ n + y.toNat := by
  rw [BitVec.toNat_append, ← Nat.shiftLeft_add_eq_or_of_lt y.isLt, Nat.shiftLeft_eq]

theorem toNat_commandWord (op dev : Byte) (idx : Half) (arg : Word) : (commandWord op dev idx arg).toNat =
    arg.toNat * 2 ^ 32 + idx.toNat * 2 ^ 16 + dev.toNat * 2 ^ 8 + op.toNat := by
  simp only [commandWord, toNat_append_eq]
  omega

/-- The four fields of a command make up its word. -/
theorem commandWord_fields (c : Command) : commandWord c.op c.dev c.idx c.arg = c.cmd := by
  have hlow : c.dev ++ c.op = c.cmd.extractLsb' 0 16 := BitVec.extractLsb'_append_extractLsb'_eq_extractLsb' rfl
  have hhalf : c.idx ++ c.cmd.extractLsb' 0 16 = c.cmd.extractLsb' 0 32 :=
    BitVec.extractLsb'_append_extractLsb'_eq_extractLsb' rfl
  rw [commandWord, hlow, hhalf]
  exact BitVec.extractLsb'_append_extractLsb'

theorem decodeCommand_of_unassigned {c : Command} (h : c.op ∉ assignedOpcodes) : decodeCommand c = .illegal c.op := by
  simp only [assignedOpcodes, List.mem_cons, List.not_mem_nil, or_false, not_or] at h
  simp only [decodeCommand, h, if_false]

/-- The opcodes outside the table of R78, as the ranges R79 lists. -/
theorem not_mem_assignedOpcodes_iff (op : Byte) : op ∉ assignedOpcodes ↔
    op.toNat = 0x00 ∨ (0x04 ≤ op.toNat ∧ op.toNat ≤ 0x0F) ∨ (0x11 ≤ op.toNat ∧ op.toNat ≤ 0x1F) ∨
    (0x25 ≤ op.toNat ∧ op.toNat ≤ 0x27) ∨ (0x29 ≤ op.toNat ∧ op.toNat ≤ 0x2F) ∨
    (0x32 ≤ op.toNat ∧ op.toNat ≤ 0xFE) := by
  have hlt := op.isLt
  simp only [assignedOpcodes, List.mem_cons, List.not_mem_nil, or_false, ← BitVec.toNat_inj]
  simp only [BitVec.ofNat_eq_ofNat, BitVec.toNat_ofNat, Nat.reducePow, Nat.reduceMod]
  omega

/-! ### Windows that begin with a frame (R71, R72) -/

theorem exists_five_bytes {w : Window} (h : 5 ≤ w.length) : ∃ b0 b1 b2 b3 b4 rest, w = b0 :: b1 :: b2 :: b3 :: b4 :: rest := by
  match w with
  | b0 :: b1 :: b2 :: b3 :: b4 :: rest => exact ⟨b0, b1, b2, b3, b4, rest, rfl⟩
  | [] | [_] | [_, _] | [_, _, _] | [_, _, _, _] => simp at h

/-- Eight bytes with function code 0x04 begin with a request frame. -/
theorem exists_requestFrame {w : Window} (hlen : 8 ≤ w.length) (hfc : w[1]? = some 0x04) :
    ∃ (q : RequestFrame) (rest : Window), w = q.bytes ++ rest := by
  obtain ⟨b0, b1, b2, b3, b4, rest5, rfl⟩ := exists_five_bytes (by omega : 5 ≤ w.length)
  obtain rfl : b1 = 0x04 := by simpa using hfc
  match rest5 with
  | b5 :: b6 :: b7 :: rest =>
    exact ⟨⟨b0, be16 b2 b3, be16 b4 b5, le16 b6 b7⟩, rest, by simp [RequestFrame.bytes, RequestFrame.head]⟩
  | [] | [_] | [_, _] => simp at hlen

/-- Five bytes are the bytes of an exception frame with their function code. -/
theorem exists_exceptionFrame {w : Window} {fc : Byte} (hlen : 5 ≤ w.length) (hfc : w[1]? = some fc) :
    ∃ (e : ExceptionFrame) (rest : Window), e.fc = fc ∧ w = e.bytes ++ rest := by
  obtain ⟨b0, b1, b2, b3, b4, rest, rfl⟩ := exists_five_bytes hlen
  exact ⟨⟨b0, b1, b2, le16 b3 b4⟩, rest, by simpa using hfc, by simp [ExceptionFrame.bytes]⟩

/-- With its byte count and five more bytes, a window begins with a response frame. -/
theorem exists_responseFrame {a : Window} {fc bc : Byte} (hlen : bc.toNat + 5 ≤ a.length) (hfc : a[1]? = some fc)
    (hbc : a[2]? = some bc) :
    ∃ (r : ResponseFrame) (rest : Window), r.fc = fc ∧ r.data.length = bc.toNat ∧ a = r.bytes ++ rest := by
  match a with
  | [] | [_] | [_, _] => simp at hlen
  | dev :: fc' :: bc' :: body =>
    obtain ⟨rfl, rfl⟩ : fc' = fc ∧ bc' = bc := by simpa using And.intro hfc hbc
    simp only [List.length_cons] at hlen
    have hdata : (body.take bc'.toNat).length = bc'.toNat := by
      rw [List.length_take]
      omega
    match htrailer : body.drop bc'.toNat with
    | lo :: hi :: rest =>
      refine ⟨⟨dev, fc', body.take bc'.toNat, le16 lo hi⟩, rest, rfl, hdata, ?_⟩
      have hbody : body.take bc'.toNat ++ lo :: hi :: rest = body := htrailer ▸ List.take_append_drop _ _
      simp [ResponseFrame.bytes, ResponseFrame.head, hdata, hbody]
    | [] | [_] =>
      have htrailerLen := congrArg List.length htrailer
      simp only [List.length_drop, List.length_cons, List.length_nil] at htrailerLen
      omega

/-! ### What the decoders answer to each class of window -/

theorem decodeIdle_request (q : RequestFrame) (rest : Window) : decodeIdle (q.bytes ++ rest) = .request q rest := by
  simp [RequestFrame.bytes, RequestFrame.head, decodeIdle]

theorem decodeIdle_short (dev : Byte) {rest : Window} (h : rest.length ≤ 3) : decodeIdle (dev :: rest) = .short dev rest := by
  match rest with
  | [] | [_] | [_, _] | [_, _, _] => rfl
  | _ :: _ :: _ :: _ :: _ => simp +arith at h

/-- No exception, and no request for its function code or its length: noise. -/
theorem decodeIdle_noise (dev : Byte) {fc : Byte} {rest : Window} (hlen : 3 ≤ rest.length) (hfc : isExceptionCode fc = false)
    (hshort : fc = 0x04 → rest.length ≤ 5) : decodeIdle (dev :: fc :: rest) = .noise dev fc rest := by
  match rest with
  | [] | [_] | [_, _] => simp at hlen
  | b2 :: b3 :: b4 :: rest5 =>
    by_cases h4 : fc = 0x04
    · subst h4
      match rest5, hshort rfl with
      | [], _ | [_], _ | [_, _], _ => rfl
      | _ :: _ :: _ :: _, h => simp +arith at h
    · simp [decodeIdle_of_ne h4, hfc]

theorem decodeAwait_short {a : Window} (h : a.length ≤ 4) : decodeAwait a = .holdShort a := by
  match a with
  | [] | [_] | [_, _] | [_, _, _] | [_, _, _, _] => rfl
  | _ :: _ :: _ :: _ :: _ :: _ => simp +arith at h

/-- A response whose data and trailer have not all arrived is held. -/
theorem decodeAwait_incomplete {a : Window} {fc bc : Byte} (hlen : 5 ≤ a.length) (hfc : a[1]? = some fc)
    (he : isExceptionCode fc = false) (hbc : a[2]? = some bc) (hshort : a.length ≤ bc.toNat + 4) :
    decodeAwait a = .holdIncomplete a := by
  obtain ⟨b0, b1, b2, b3, b4, rest5, rfl⟩ := exists_five_bytes hlen
  obtain ⟨rfl, rfl⟩ : b1 = fc ∧ b2 = bc := by simpa using And.intro hfc hbc
  match htrailer : (b3 :: b4 :: rest5).drop b2.toNat with
  | [] | [_] => simp only [decodeAwait, he, htrailer, Bool.false_eq_true, if_false]
  | _ :: _ :: _ =>
    have htrailerLen := congrArg List.length htrailer
    simp only [List.length_drop, List.length_cons] at htrailerLen hshort
    omega

end Sys2Proof

namespace Sys2Proof.Machine

/-! ### The events a command returns (60_exceptions.md R153) -/

/-- Every event has a code that STEP and READ may report: one of R153, and not that of ILLEGAL_COMMAND (11). -/
def CorrelatorCodes (evts : List Event) : Prop := ∀ e ∈ evts, 1 ≤ e.code.toNat ∧ e.code.toNat ≤ 10

theorem correlatorCodes_nil : CorrelatorCodes [] := by simp [CorrelatorCodes]

theorem correlatorCodes_singleton {c : Byte} {dev : Byte} {a b : Word} (h : 1 ≤ c.toNat ∧ c.toNat ≤ 10) :
    CorrelatorCodes [⟨c, dev, a, b⟩] := by
  simpa [CorrelatorCodes] using h

theorem CorrelatorCodes.append {e₁ e₂ : List Event} (h₁ : CorrelatorCodes e₁) (h₂ : CorrelatorCodes e₂) :
    CorrelatorCodes (e₁ ++ e₂) :=
  fun e he => (List.mem_append.mp he).elim (h₁ e) (h₂ e)

theorem CorrelatorCodes.ite {c : Prop} [Decidable c] {e₁ e₂ : List Event} (h₁ : CorrelatorCodes e₁)
    (h₂ : CorrelatorCodes e₂) : CorrelatorCodes (if c then e₁ else e₂) :=
  iteInduction (fun _ => h₁) fun _ => h₂

theorem idleStep_codes {w : Window} {now : Nat} {s : State} (hs : CorrelatorCodes s.out.evt) :
    CorrelatorCodes (idleStep w now s).out.evt := by
  unfold idleStep
  cases decodeIdle w with
  | empty => exact hs
  | short | exception | noise => exact hs.append (correlatorCodes_singleton (by decide))
  | request q rest =>
    simp only [capture, State.setRem_out, State.emit_out, State.toAwaiting_out, checkRequestCrc_out]
    exact (hs.append (.ite (correlatorCodes_singleton (by decide)) correlatorCodes_nil)).append
      (correlatorCodes_singleton (by decide))

theorem responseEvents_codes (r : ResponseFrame) (s : State) (L : Nat) : CorrelatorCodes (responseEvents r s L) :=
  (((CorrelatorCodes.ite correlatorCodes_nil (correlatorCodes_singleton (by decide))).append
    (.ite correlatorCodes_nil (correlatorCodes_singleton (by decide)))).append
    (.ite (correlatorCodes_singleton (by decide)) correlatorCodes_nil)).append
    (correlatorCodes_singleton (by decide))

theorem awaitStep_codes {w : Window} {s t : State} (hs : CorrelatorCodes s.out.evt) (h : awaitStep w s = .ok t) :
    CorrelatorCodes t.out.evt := by
  rcases awaitStep_cases w s with ⟨a, -, hrun⟩ | ⟨e, rest, -, hrun⟩ | ⟨r, rest, -, hrun⟩
  · cases hrun.symm.trans h
    exact hs
  · cases hrun.symm.trans h
    exact hs.append (correlatorCodes_singleton (by decide))
  · obtain ⟨u, hu, hframe, -⟩ := complete_spec r rest s
    cases hu.symm.trans (hrun.symm.trans h)
    rw [hframe]
    exact hs.append (responseEvents_codes _ _ _)

theorem correlate_codes {w : Window} {now : Nat} {s t : State} (h : correlate w now s = .ok t) :
    CorrelatorCodes t.out.evt := by
  rcases correlate_cases w now s with ⟨-, hrun⟩ | ⟨-, -, hrun⟩ | ⟨-, -, hrun⟩
  · cases hrun.symm.trans h
    exact idleStep_codes (correlatorCodes_singleton (by decide))
  · exact awaitStep_codes (s := s.clearOut) correlatorCodes_nil (hrun.symm.trans h)
  · cases hrun.symm.trans h
    exact idleStep_codes correlatorCodes_nil

theorem readWindow_codes {w : Window} {now : Nat} {s t : State} (h : readWindow w now s = .ok t) :
    CorrelatorCodes t.out.evt :=
  readWindow_of_step (T := fun _ evts _ => CorrelatorCodes evts) (fun _ => correlatorCodes_nil) .append (fun _ h => h)
    correlate_codes h

@[simp] theorem readPorts_evt (v : Option Word) : (readPorts v).evt = [] := by cases v <;> rfl

theorem access2_evt {f : Byte → Byte → Word} {d : Byte} {idx : Half} {s t : State} (h : access2 f d idx s = .ok t) :
    t.out.evt = [] := by
  obtain ⟨v, hv, -⟩ := access2_spec f d idx s
  cases hv.symm.trans h
  exact readPorts_evt v

theorem access4_evt {f : Byte → Byte → Byte → Byte → Word} {d : Byte} {idx : Half} {s t : State}
    (h : access4 f d idx s = .ok t) : t.out.evt = [] := by
  obtain ⟨v, hv, -⟩ := access4_spec f d idx s
  cases hv.symm.trans h
  exact readPorts_evt v

/-- What an unassigned opcode does (44_control.md R148). -/
theorem exec_illegal (op : Byte) (s : State) :
    exec (.illegal op) s = .next { s with out := { illegalPorts with evt := [.illegalCommand op] } } := rfl

/-- Every command reports events of the correlator, as STEP or READ, or none, or is an unassigned opcode and reports that
alone. -/
theorem exec_evt_cases {i : Instr} {s t : State} (hi : i.isCommand = true) (h : exec i s = .next t) :
    ((∃ w now, i = .step w now ∨ i = .read w now) ∧ CorrelatorCodes t.out.evt) ∨
    (∃ op, i = .illegal op ∧ t.out.evt = [.illegalCommand op]) ∨
    t.out.evt = [] := by
  cases i with
  | step w now => exact .inl ⟨⟨w, now, .inl rfl⟩, correlate_codes (outcome_eq_next.mp h)⟩
  | read w now => exact .inl ⟨⟨w, now, .inr rfl⟩, readWindow_codes (outcome_eq_next.mp h)⟩
  | illegal op =>
    cases (exec_illegal op s).symm.trans h
    exact .inr (.inl ⟨op, rfl, rfl⟩)
  | geti16 | getu16 => exact .inr (.inr (access2_evt (outcome_eq_next.mp h)))
  | getf32 | geti32 | getu32 => exact .inr (.inr (access4_evt (outcome_eq_next.mp h)))
  | cfgw idx v =>
    right; right
    rcases exec_cfgw_cases idx v with ⟨-, hrun⟩ | ⟨-, hrun⟩ | ⟨-, -, hrun⟩
    all_goals
      cases (hrun s).symm.trans h
      rfl
  | cfgr idx =>
    right; right
    rcases exec_cfgr_cases idx with ⟨-, hrun⟩ | ⟨-, hrun⟩ | ⟨-, hrun⟩ | ⟨-, -, -, hrun⟩
    all_goals
      cases (hrun s).symm.trans h
      rfl
  | crc16 | extend | dump | reset =>
    cases h
    exact .inr (.inr rfl)
  | _ => cases hi

end Sys2Proof.Machine
end

section
/-! PROOFS. The statements about encodings (30_encoding.md) and the events of commands (60_exceptions.md). -/

namespace Sys2Proof.Machine

/-- Settles O3: each OP selects its row of the decoder, and the fields of the word are the operands. -/
theorem opcodeSelectsCommandAndOperands : Obligations.OpcodeSelectsCommandAndOperands := by
  refine ⟨toNat_commandWord, commandWord_fields, fun op dev idx arg win now => ?_⟩
  have hillegal (hop : op ∉ assignedOpcodes) : decodeCommand ⟨commandWord op dev idx arg, win, now⟩ = .illegal op := by
    rw [decodeCommand_of_unassigned (by rwa [op_commandWord]), op_commandWord]
  simp only [decodeCommand, op_commandWord, dev_commandWord, idx_commandWord, arg_commandWord] at hillegal ⊢
  exact ⟨rfl, rfl, rfl, rfl, rfl, rfl, rfl, rfl, rfl, rfl, rfl, rfl, rfl, hillegal⟩

/-- Settles O7: in each class the window begins with a frame's bytes, or is decoded whole. -/
theorem idleWindowClass : Obligations.IdleWindowClass := by
  refine fun w now => ⟨fun h => ?_, fun h1 h4 => ?_, fun hlen hfc => ?_, fun fc hlen hfc he => ?_,
    fun fc hlen hfc he hshort => ?_⟩
  · rw [List.length_eq_zero_iff.mp h]
    rfl
  · obtain ⟨dev, rest, rfl⟩ := List.exists_cons_of_length_pos h1
    rw [List.length_cons] at h4
    refine ⟨dev, rest, rfl, ?_⟩
    rw [decode, decodeIdle_short dev (by omega), IdleFrame.toInstr]
  · obtain ⟨q, rest, rfl⟩ := exists_requestFrame hlen hfc
    refine ⟨q, rfl, ?_⟩
    rw [decode, decodeIdle_request, IdleFrame.toInstr]
    rfl
  · obtain ⟨e, rest, rfl, rfl⟩ := exists_exceptionFrame hlen hfc
    refine ⟨e, rfl, ?_⟩
    rw [decode, decodeIdle_exception ((isExceptionCode_iff _).mpr he), IdleFrame.toInstr]
    rfl
  · match w with
    | dev :: fc' :: rest =>
      obtain rfl : fc' = fc := by simpa using hfc
      simp only [List.length_cons] at hlen hshort
      refine ⟨dev, rest, rfl, ?_⟩
      rw [decode, decodeIdle_noise dev (by omega) ((isExceptionCode_eq_false_iff _).mpr he)
        (fun h => by specialize hshort h; omega), IdleFrame.toInstr]
    | [] | [_] => simp at hlen

/-- Settles O8: in each class the buffer begins with a frame's bytes, or is held whole. -/
theorem awaitingBufferClass : Obligations.AwaitingBufferClass := by
  refine fun a => ⟨fun h => ?_, fun fc hlen hfc he => ?_, fun fc bc hlen hfc he hbc hshort => ?_,
    fun fc bc _ hfc he hbc hlen => ?_⟩
  · rw [decode, decodeAwait_short h, AwaitFrame.toInstr]
  · obtain ⟨e, rest, rfl, rfl⟩ := exists_exceptionFrame hlen hfc
    refine ⟨e, rfl, ?_⟩
    rw [decode, decodeAwait_exception ((isExceptionCode_iff _).mpr he), AwaitFrame.toInstr]
    rfl
  · rw [decode, decodeAwait_incomplete hlen hfc ((isExceptionCode_eq_false_iff _).mpr he) hbc hshort, AwaitFrame.toInstr]
  · obtain ⟨r, rest, rfl, hdata, rfl⟩ := exists_responseFrame hlen hfc hbc
    have hbytes : r.bytes.length = bc.toNat + 5 := by rw [r.bytes_length, hdata]
    have hcount : r.data.length ≤ 255 := hdata ▸ Nat.le_of_lt_succ bc.isLt
    refine ⟨r, (List.take_left' hbytes).symm, hdata, ?_⟩
    rw [decode, decodeAwait_response ((isExceptionCode_eq_false_iff _).mpr he) hcount, List.drop_left' hbytes,
      AwaitFrame.toInstr]

/-- Settles O38, by the events each command may report. -/
theorem eventCodesAreThoseOfTheTable : Obligations.EventCodesAreThoseOfTheTable := by
  intro i s t hi h
  rcases exec_evt_cases hi h with ⟨hcorrelator, hcodes⟩ | ⟨op, rfl, hevt⟩ | hevt
  · refine ⟨fun e he => ?_, fun _ => .inl hcorrelator⟩
    obtain ⟨hlow, hhigh⟩ := hcodes e he
    refine ⟨hlow, by omega, fun h11 => by simp [h11] at hhigh, ?_⟩
    rintro ⟨op, rfl⟩
    simp at hcorrelator
  · refine ⟨fun e he => ?_, fun _ => .inr ⟨op, rfl⟩⟩
    obtain rfl : e = .illegalCommand op := by simpa [hevt] using he
    exact ⟨by simp [Event.illegalCommand], by simp [Event.illegalCommand], fun _ => ⟨op, rfl⟩, fun _ => rfl⟩
  · exact ⟨fun e he => by simp [hevt] at he, fun hne => absurd hevt hne⟩

/-- Settles O1, by evaluating the decoder on the four words. -/
theorem exampleCommandWordsDecode : Obligations.ExampleCommandWordsDecode := by
  unfold Obligations.ExampleCommandWordsDecode
  decide

/-- Settles O2, by evaluating the two wire decoders on the five windows. -/
theorem exampleFramesDecode : Obligations.ExampleFramesDecode := by
  unfold Obligations.ExampleFramesDecode
  decide

/-- Settles O56: the ranges, the last row of the decoder, and what ILLEGAL does. -/
theorem unassignedOpcodeIsIllegal : Obligations.UnassignedOpcodeIsIllegal := by
  refine ⟨not_mem_assignedOpcodes_iff, fun c h => decodeCommand_of_unassigned h, fun op s => ?_⟩
  rw [exec_illegal, BitVec.ofNat_toNat]
  rfl

end Sys2Proof.Machine
end

section
/-! SUPPORT. The CRC unit (40_crc.md): its iterations on a word whose low bits are zero, and windows taken apart. -/

namespace Sys2Proof

theorem getLsbD_setWidth_loByte (c : Half) (i : Nat) :
    ((loByte c).setWidth 16).getLsbD i = (decide (i < 8) && c.getLsbD i) := by
  rw [loByte, BitVec.getLsbD_setWidth, BitVec.getLsbD_extractLsb']
  by_cases h : i < 8
  · simp [h, h.trans (by decide : 8 < 16)]
  · simp [h]

/-- The high byte of a word, widened, is the word moved down by a byte. -/
theorem setWidth_hiByte (c : Half) : (hiByte c).setWidth 16 = c >>> 8 := by
  apply BitVec.eq_of_getLsbD_eq
  intro i hi
  rw [hiByte, BitVec.getLsbD_setWidth, BitVec.getLsbD_extractLsb', BitVec.getLsbD_ushiftRight]
  by_cases h : i < 8
  · rw [decide_eq_true hi, decide_eq_true h, Bool.true_and, Bool.true_and]
  · rw [BitVec.getLsbD_of_ge c (8 + i) (by omega), Bool.and_false, Bool.and_false]

end Sys2Proof

namespace Sys2Proof.Machine

theorem crcBit_of_even {c : Half} (h : c.getLsbD 0 = false) : crcBit c = c >>> 1 := by
  rw [crcBit, h, if_neg Bool.false_ne_true]

/-- The polynomial enters only where a set bit is shifted out: while the low bits are zero the iterations are a shift. -/
theorem repeat_crcBit_of_low_zero {c : Half} (n : Nat) (h : ∀ i < n, c.getLsbD i = false) :
    Nat.repeat crcBit n c = c >>> n := by
  induction n with
  | zero => simp [Nat.repeat]
  | succ n ih =>
    have hn : (c >>> n).getLsbD 0 = false := by simpa using h n n.lt_succ_self
    rw [Nat.repeat, ih fun i hi => h i (by omega), crcBit_of_even hn, ← BitVec.shiftRight_add]

/-- A byte equal to the low byte of the running CRC cancels it, and what is left is the high byte. -/
theorem crcByte_loByte (c : Half) : crcByte c (loByte c) = (hiByte c).setWidth 16 := by
  have hlow (i : Nat) (hi : i < 8) : (c ^^^ (loByte c).setWidth 16).getLsbD i = false := by
    rw [BitVec.getLsbD_xor, getLsbD_setWidth_loByte, decide_eq_true hi, Bool.true_and, Bool.xor_self]
  have hcleared : (loByte c).setWidth 16 >>> 8 = 0#16 := by
    apply BitVec.eq_of_getLsbD_eq
    intro i _
    rw [BitVec.getLsbD_ushiftRight, getLsbD_setWidth_loByte, decide_eq_false (by omega), Bool.false_and,
      BitVec.getLsbD_zero]
  rw [crcByte, repeat_crcBit_of_low_zero 8 hlow, BitVec.ushiftRight_xor_distrib, hcleared, BitVec.xor_zero, setWidth_hiByte]

/-- A running CRC that fits a byte is taken to zero by that byte. -/
theorem crcByte_setWidth_self (b : Byte) : crcByte (b.setWidth 16) b = 0 := by
  rw [crcByte, BitVec.xor_self, repeat_crcBit_of_low_zero 8 (by simp)]
  simp

theorem crc16_append (v w : Window) : crc16 (v ++ w) = w.foldl crcByte (crc16 v) := List.foldl_append

/-- The residue (40_crc.md R92): the trailer's low byte leaves the CRC's high byte, and the trailer's high byte leaves zero. -/
theorem crc16_append_own_crc (w : Window) : crc16 (w ++ [loByte (crc16 w), hiByte (crc16 w)]) = 0 := by
  rw [crc16_append, List.foldl_cons, List.foldl_cons, List.foldl_nil, crcByte_loByte, crcByte_setWidth_self]

theorem repeat_crcBit_eq_iterate (n : Nat) (c : Half) : Nat.repeat crcBit n c = crcBit^[n] c := by
  induction n with
  | zero => rfl
  | succ n ih => rw [Nat.repeat, ih, Function.iterate_succ_apply']

theorem crc16_append_singleton (w : Window) (b : Byte) : crc16 (w ++ [b]) = crcBit^[8] (crc16 w ^^^ b.setWidth 16) := by
  rw [crc16_append, List.foldl_cons, List.foldl_nil, crcByte, repeat_crcBit_eq_iterate]

end Sys2Proof.Machine
end

section
/-! PROOFS. The statements about the CRC (40_crc.md). -/

namespace Sys2Proof.Machine

/-- Settles O13: the residue byte by byte, and the two fixed windows by evaluating the checksum. -/
theorem crcCommandResult : Obligations.CrcCommandResult := by
  refine ⟨fun w s => ?_, rfl, by decide +kernel, crc16_append_own_crc⟩
  rw [BitVec.ofNat_toNat]
  rfl

/-- Settles O12: each byte is folded in by 8 iterations, and the worked example is evaluated. -/
theorem crcIsComputedBitByBit : Obligations.CrcIsComputedBitByBit :=
  ⟨rfl, crc16_append_singleton, by decide +kernel⟩

end Sys2Proof.Machine
end

section
/-! SUPPORT. The correlator run as a frame class of its window; how many bytes a STEP consumes; READ's loop; and a completed
response seen from the store alone. -/

namespace Sys2Proof

/-! ### The bytes a frame's CRC covers (30_encoding.md R64, R66) -/

theorem RequestFrame.take_bytes (q : RequestFrame) : q.bytes.take 6 = q.head := rfl

theorem ResponseFrame.take_bytes (r : ResponseFrame) : r.bytes.take (r.data.length + 3) = r.head :=
  List.take_left' (by simp [ResponseFrame.head])

end Sys2Proof

namespace Sys2Proof.Machine

/-! ### Events by their numbers (60_exceptions.md R153) -/

theorem Event.exceptionFrame_eq (dev fc code : Byte) (abandoned : Bool) :
    Event.exceptionFrame dev fc code abandoned =
      ⟨5, dev, BitVec.ofNat 32 (fc.toNat * 256 + code.toNat), if abandoned then 1 else 0⟩ := by
  rw [Event.exceptionFrame, ← BitVec.ofNat_toNat, toNat_append_eq]
  rfl

theorem windowLength_of_lt {w : Window} (h : w.length < 2 ^ 32) : windowLength w = BitVec.ofNat 32 w.length := if_pos h

/-- How many bytes are dropped: those beyond the room between the base and the length. -/
theorem droppedCount_eq (base n L : Nat) : droppedCount base n L = n - (L - base) := by
  unfold droppedCount
  omega

theorem droppedCount_pos_iff (base n L : Nat) : droppedCount base n L > 0 ↔ ¬(base + n ≤ L ∨ n = 0) := by
  rw [droppedCount_eq]
  omega

/-- CheckRequestCrc adds a warning at most (R102). -/
theorem checkRequestCrc_eq (q : RequestFrame) (s : State) :
    checkRequestCrc q s = { s with out := { s.out with evt := s.out.evt ++
      (if crc16 q.head = q.crc then [] else [.badCrcRequest q.dev (crc16 q.head) q.crc]) } } := by
  by_cases h : crc16 q.head = q.crc <;> simp [checkRequestCrc, State.emitIf, State.emit, h]

/-- The events of a completed response, by their numbers. -/
theorem responseEvents_eq (r : ResponseFrame) (s : State) (L : Nat) : responseEvents r s L =
    (if crc16 (r.bytes.take (r.data.length + 3)) = r.crc then []
      else [⟨4, r.dev, BitVec.ofNat 32 (crc16 (r.bytes.take (r.data.length + 3))).toNat, BitVec.ofNat 32 r.crc.toNat⟩]) ++
    (if r.data.length = 2 * s.pend.count.toNat then []
      else [⟨6, r.dev, BitVec.ofNat 32 r.data.length, BitVec.ofNat 32 (2 * s.pend.count.toNat)⟩]) ++
    (if responseBase s + r.data.length ≤ L ∨ r.data.length = 0 then []
      else [⟨8, r.dev, BitVec.ofNat 32 (max (responseBase s) L),
        BitVec.ofNat 32 (r.data.length - (L - responseBase s))⟩]) ++
    [⟨10, r.dev, BitVec.ofNat 32 (responseBase s), BitVec.ofNat 32 r.data.length⟩] := by
  simp only [responseEvents, droppedCount_pos_iff, ite_not]
  simp only [droppedCount_eq, ResponseFrame.take_bytes, BitVec.ofNat_toNat]
  rfl

/-- The length Extend gives a device of a well-formed store, in closed form (42_register_store.md R131). -/
theorem extendedLen_of_wf {s : State} (hs : Store.wf s.store = true) (d : Byte) (req : Nat) :
    extendedLen ((s.buffer? d).map (·.len)) req =
      max (max (s.len d) 4096) (min 65536 (4096 * ((req + 4095) / 4096))) := by
  cases hb : s.buffer? d with
  | none => simpa [len_of_unknown hb] using extendedLen_eq none req (by simp)
  | some b =>
    have hlegal : legalLen b.len = true := len_of_buffer hb ▸ legalLen_of_alloc hs (by simp [alloc_eq, hb])
    simpa [len_of_buffer hb] using extendedLen_eq (some b.len) req (by simpa using hlegal)

/-! ### A STEP and the class of its window (41_correlator.md R97, R100, R105) -/

theorem exec_idleWindow (w : Window) (now : Nat) (s : State) :
    exec (decode (.idleWindow w now)) s = .next (idleStep w now s) := by
  rw [decode, idleStep]
  cases decodeIdle w <;> rfl

theorem exec_awaitBuffer (w : Window) (s : State) :
    exec (decode (.awaitBuffer (s.asm ++ w))) s = outcome (awaitStep w s) := by
  rw [decode, awaitStep]
  cases decodeAwait (s.asm ++ w) <;> rfl

theorem correlate_of_timedOut {w : Window} {now : Nat} {s : State} (h : s.timedOut now = true) :
    correlate w now s = .ok (idleStep w now s.clearOut.timeout) := if_pos h

theorem correlate_of_idle {w : Window} {now : Nat} {s : State} (h : s.pend.valid = false) :
    correlate w now s = .ok (idleStep w now s.clearOut) := by
  simp [correlate, State.timedOut, h]

theorem correlate_of_inTime {w : Window} {now : Nat} {s : State} (hv : s.pend.valid = true)
    (h : now - s.pend.time ≤ s.cfg.reqTimeout.toNat) : correlate w now s = awaitStep w s.clearOut := by
  simp [correlate, State.timedOut, hv, Nat.not_lt.mpr h]

/-! ### How many bytes a STEP consumes (R114) -/

/-- In Idle a non-empty REM lacks at least the 5 bytes of a frame. -/
theorem idleStep_rem (w : Window) (now : Nat) (s : State) :
    (idleStep w now s).out.rem = [] ∨ (idleStep w now s).out.rem.length + 5 ≤ w.length := by
  unfold idleStep
  rcases decodeIdle_cases w with ⟨-, hd⟩ | ⟨dev, rest, -, -, hd⟩ | ⟨q, rest, rfl, hd⟩ | ⟨e, rest, rfl, -, hd⟩ |
    ⟨dev, fc, rest, -, -, -, -, hd⟩
  all_goals rw [hd]
  · exact .inl rfl
  · exact .inl rfl
  · right
    rw [List.length_append, q.bytes_length]
    simp only [capture, State.setRem_out]
    omega
  · right
    rw [List.length_append, e.bytes_length]
    simp only [idleException, State.setRem_out]
    omega
  · exact .inl rfl

theorem idleStep_asm (w : Window) (now : Nat) (s : State) :
    (idleStep w now s).asm = s.asm ∨ (idleStep w now s).asm = [] := by
  obtain ⟨evs, -, ⟨-, ha⟩ | ⟨-, ha, -⟩⟩ := idleStep_pend w now s
  · exact .inl ha
  · exact .inr ha

theorem incomplete_exception {e : ExceptionFrame} (he : isExceptionCode e.fc = true) (x : Window) :
    incomplete (e.bytes ++ x) = false := by
  simp [incomplete, ExceptionFrame.bytes, functionCode?, byteCount?, he]

theorem incomplete_response {r : ResponseFrame} (hlen : r.data.length ≤ 255) (x : Window) :
    incomplete (r.bytes ++ x) = false := by
  have hbytes : (r.bytes ++ x).length = r.data.length + 5 + x.length := by rw [List.length_append, r.bytes_length]
  have hshort : ¬(r.bytes ++ x).length ≤ 4 := by omega
  have hdone : ¬(r.bytes ++ x).length < r.data.length + 5 := by omega
  have hfc : functionCode? (r.bytes ++ x) = some r.fc := rfl
  have hbc : byteCount? (r.bytes ++ x) = some (BitVec.ofNat 8 r.data.length) := rfl
  simp only [incomplete, hfc, hbc, toNat_byteCount hlen, hshort, hdone, decide_false, Bool.and_false, Bool.or_false]

/-- Incomplete bytes stop short of the end of the frame they begin. -/
theorem length_lt_of_incomplete {a w f rest : Window} (ha : incomplete a = true) (h : a ++ w = f ++ rest)
    (hf : ∀ x, incomplete (f ++ x) = false) : a.length < f.length := by
  rcases List.append_eq_append_iff.mp h with ⟨_ | ⟨b, x⟩, rfl, -⟩ | ⟨x, rfl, -⟩
  · have hwhole := hf []
    simp [ha] at hwhole
  · simp
  · simp [hf] at ha

/-- While awaiting, a non-empty REM follows a whole frame: the frame's 5 bytes or more are gone, held bytes and all, and if the
held bytes were incomplete some of the window is gone too. -/
theorem awaitStep_rem {w : Window} {s t : State} (h : awaitStep w s = .ok t) :
    t.out.rem = [] ∨ (t.asm = [] ∧ t.out.rem.length + 5 ≤ s.asm.length + w.length ∧
      (incomplete s.asm = true → t.out.rem.length < w.length)) := by
  have frame {f rest : Window} (hbytes : s.asm ++ w = f ++ rest) (hf : ∀ x, incomplete (f ++ x) = false)
      (h5 : 5 ≤ f.length) : rest.length + 5 ≤ s.asm.length + w.length ∧
        (incomplete s.asm = true → rest.length < w.length) := by
    have hlen := congrArg List.length hbytes
    rw [List.length_append, List.length_append] at hlen
    refine ⟨by omega, fun ha => ?_⟩
    have := length_lt_of_incomplete ha hbytes hf
    omega
  unfold awaitStep at h
  rcases decodeAwait_cases (s.asm ++ w) with ⟨-, hd⟩ | ⟨e, rest, hbytes, he, hd⟩ | ⟨dev, fc, bc, rest, -, -, -, -, hd⟩ |
    ⟨r, rest, hbytes, -, hlen, hd⟩
  all_goals rw [hd] at h
  · cases h
    exact .inl rfl
  · cases h
    exact .inr ⟨rfl, frame hbytes (incomplete_exception he) (by simp [e.bytes_length])⟩
  · cases h
    exact .inl rfl
  · obtain ⟨u, hu, hframe, -⟩ := complete_spec r rest s
    cases hu.symm.trans h
    rw [hframe]
    exact .inr ⟨rfl, frame hbytes (incomplete_response hlen) (by simp [r.bytes_length])⟩

/-- A STEP with a non-empty REM empties the assembly buffer, or, in Idle, leaves it and takes its 5 bytes from the window. -/
theorem correlate_rem {w : Window} {now : Nat} {s t : State} (h : correlate w now s = .ok t) :
    t.out.rem = [] ∨ (t.asm = [] ∧ t.out.rem.length + 5 ≤ s.asm.length + w.length) ∨
      (s.pend.valid = false ∧ t.asm = s.asm ∧ t.out.rem.length + 5 ≤ w.length) := by
  rcases correlate_cases w now s with ⟨-, hrun⟩ | ⟨-, -, hrun⟩ | ⟨-, hv, hrun⟩
  · cases hrun.symm.trans h
    have hasm : (idleStep w now s.clearOut.timeout).asm = [] := (idleStep_asm w now s.clearOut.timeout).elim id id
    exact (idleStep_rem w now s.clearOut.timeout).imp id fun hrem => .inl ⟨hasm, by omega⟩
  · rcases awaitStep_rem (hrun.symm.trans h) with hrem | ⟨ha, hrem, -⟩
    · exact .inl hrem
    · exact .inr (.inl ⟨ha, hrem⟩)
  · cases hrun.symm.trans h
    rcases idleStep_rem w now s.clearOut with hrem | hrem
    · exact .inl hrem
    · rcases idleStep_asm w now s.clearOut with ha | ha
      · exact .inr (.inr ⟨hv, ha, hrem⟩)
      · exact .inr (.inl ⟨ha, by omega⟩)

/-- A STEP with a non-empty REM leaves at least 5 bytes fewer to run through, held ones counted. -/
theorem correlate_consumes {w : Window} {now : Nat} {s t : State} (h : correlate w now s = .ok t) (hrem : t.out.rem ≠ []) :
    t.asm.length + t.out.rem.length + 5 ≤ s.asm.length + w.length := by
  rcases correlate_rem h with hnil | ⟨ha, hlen⟩ | ⟨-, ha, hlen⟩
  · exact absurd hnil hrem
  · rw [ha, List.length_nil]
    omega
  · rw [ha]
    omega

theorem asm_eq_nil_of_idle {s : State} (hs : s.asmOk = true) (hv : s.pend.valid = false) : s.asm = [] := by
  simpa [State.asmOk, hv] using hs

theorem incomplete_of_awaiting {s : State} (hs : s.asmOk = true) (hv : s.pend.valid = true) : incomplete s.asm = true := by
  simpa [State.asmOk, hv] using hs

theorem asmOk_of_inv {s : State} (hs : s.inv = true) : s.asmOk = true := by
  simp only [State.inv, Bool.and_eq_true] at hs
  exact hs.1.2

/-- Under the invariant a STEP with a non-empty REM leaves the assembly buffer empty. -/
theorem correlate_asm_of_rem {w : Window} {now : Nat} {s t : State} (hs : s.asmOk = true) (h : correlate w now s = .ok t)
    (hrem : t.out.rem ≠ []) : t.asm = [] := by
  rcases correlate_rem h with hnil | ⟨ha, -⟩ | ⟨hv, ha, -⟩
  · exact absurd hnil hrem
  · exact ha
  · exact ha.trans (asm_eq_nil_of_idle hs hv)

/-- Under the invariant a STEP's REM is shorter than its window, however many bytes were held. -/
theorem correlate_rem_lt {w : Window} {now : Nat} {s t : State} (hs : s.asmOk = true) (h : correlate w now s = .ok t)
    (hrem : t.out.rem ≠ []) : t.out.rem.length < w.length := by
  have idle (u : State) (hu : t = idleStep w now u) : t.out.rem.length < w.length := by
    subst hu
    have := (idleStep_rem w now u).resolve_left hrem
    omega
  rcases correlate_cases w now s with ⟨-, hrun⟩ | ⟨-, hv, hrun⟩ | ⟨-, -, hrun⟩
  · exact idle _ (Except.ok.inj (h.symm.trans hrun))
  · obtain ⟨-, -, hlt⟩ := (awaitStep_rem (hrun.symm.trans h)).resolve_left hrem
    exact hlt (incomplete_of_awaiting hs hv)
  · exact idle _ (Except.ok.inj (h.symm.trans hrun))

/-! ### READ's loop (R115, R116) -/

theorem drain_of_empty {w : Window} {now : Nat} {s s₁ : State} (h : correlate w now s = .ok s₁) (hrem : s₁.out.rem = [])
    (n : Nat) (all : List Event) :
    drain (n + 1) w now all s = .ok { s₁ with out := { Ports.default with evt := all ++ s₁.out.evt } } := by
  simp only [drain, h, hrem, if_true]

theorem drain_of_rem {w : Window} {now : Nat} {s s₁ : State} (h : correlate w now s = .ok s₁) (hrem : s₁.out.rem ≠ [])
    (n : Nat) (all : List Event) :
    drain (n + 1) w now all s = drain n s₁.out.rem now (all ++ s₁.out.evt) s₁ := by
  simp only [drain, h, hrem, if_false]

/-- The events reported before the loop stand before its own and change nothing else. -/
theorem drain_append {n : Nat} {w : Window} {now : Nat} {all : List Event} {s t : State} (pre : List Event)
    (h : drain n w now all s = .ok t) :
    drain n w now (pre ++ all) s = .ok { t with out := { Ports.default with evt := pre ++ t.out.evt } } := by
  induction n generalizing w all s with
  | zero => cases h
  | succ n ih =>
    obtain ⟨s₁, hs₁⟩ := correlate_ok w now s
    by_cases hrem : s₁.out.rem = []
    · rw [drain_of_empty hs₁ hrem] at h ⊢
      cases h
      rw [List.append_assoc]
    · rw [drain_of_rem hs₁ hrem] at h ⊢
      rw [List.append_assoc]
      exact ih h

/-- Once the loop ends, more STEPs allowed change nothing. -/
theorem drain_mono {n m : Nat} (hnm : n ≤ m) {w : Window} {now : Nat} {all : List Event} {s t : State}
    (h : drain n w now all s = .ok t) : drain m w now all s = .ok t := by
  induction n generalizing m w all s with
  | zero => cases h
  | succ n ih =>
    obtain ⟨m, rfl⟩ : ∃ k, m = k + 1 := ⟨m - 1, by omega⟩
    obtain ⟨s₁, hs₁⟩ := correlate_ok w now s
    by_cases hrem : s₁.out.rem = []
    · rw [drain_of_empty hs₁ hrem] at h ⊢
      exact h
    · rw [drain_of_rem hs₁ hrem] at h ⊢
      exact ih (by omega) h

/-- Every STEP but the last removes 5 bytes, so the loop ends while it may run one STEP per 5 bytes and one more. -/
theorem drain_ok {n : Nat} {w : Window} {s : State} (h : s.asm.length + w.length < 5 * n) (now : Nat) (all : List Event) :
    ∃ t, drain n w now all s = .ok t := by
  induction n generalizing w all s with
  | zero => omega
  | succ n ih =>
    obtain ⟨s₁, hs₁⟩ := correlate_ok w now s
    by_cases hrem : s₁.out.rem = []
    · exact ⟨_, drain_of_empty hs₁ hrem n all⟩
    · rw [drain_of_rem hs₁ hrem]
      have := correlate_consumes hs₁ hrem
      exact ih (by omega) _

/-- Two bounds within which the loop ends give one result. -/
theorem drain_eq_of_ok {n m : Nat} {w : Window} {now : Nat} {all : List Event} {s t u : State}
    (h : drain n w now all s = .ok t) (hu : drain m w now all s = .ok u) : drain m w now all s = .ok t := by
  have hmax := (drain_mono (le_max_left n m) h).symm.trans (drain_mono (le_max_right n m) hu)
  rw [hu, hmax]

/-- From the second STEP on the assembly buffer is empty and a byte of the window gone. -/
theorem drain_ok_of_asmOk {w : Window} {s : State} (hs : s.asmOk = true) (now : Nat) (all : List Event) :
    ∃ t, drain ((w.length - 1) / 5 + 2) w now all s = .ok t := by
  obtain ⟨s₁, hs₁⟩ := correlate_ok w now s
  by_cases hrem : s₁.out.rem = []
  · exact ⟨_, drain_of_empty hs₁ hrem _ all⟩
  · rw [drain_of_rem hs₁ hrem]
    have hasm := correlate_asm_of_rem hs hs₁ hrem
    have hlt := correlate_rem_lt hs hs₁ hrem
    exact drain_ok (by rw [hasm, List.length_nil]; omega) now _

theorem readWindow_of_ne_nil {w : Window} (hw : w ≠ []) (now : Nat) (s : State) :
    readWindow w now s = drain (drainBound s w) w now [] s := if_neg hw

/-! ### A completed response reads and writes the store whatever the assembly buffer holds -/

theorem storeWrite_of_store {d : Byte} {a : Nat} {x : Byte} {s u t : State} (hu : u.store = s.store)
    (h : storeWrite d a x s = .ok t) : storeWrite d a x u = .ok { u with store := t.store } := by
  unfold storeWrite at h ⊢
  rw [State.buffer?_congr hu]
  cases hb : s.buffer? d with
  | none => simp [hb] at h
  | some b =>
    simp only [hb] at h ⊢
    split_ifs at h ⊢
    cases h
    simp [State.setBuffer, hu]

theorem writeBelow_of_store {d : Byte} {L a : Nat} {xs : Window} {s u t : State} (hu : u.store = s.store)
    (h : writeBelow d L a xs s = .ok t) : writeBelow d L a xs u = .ok { u with store := t.store } := by
  induction xs generalizing a s u with
  | nil =>
    cases h
    rw [← hu]
    rfl
  | cons x xs ih =>
    simp only [writeBelow] at h ⊢
    split_ifs at h ⊢
    · cases hw : storeWrite d a x s with
      | error f => simp [hw] at h
      | ok s₁ =>
        simp only [hw, storeWrite_of_store hu hw] at h ⊢
        exact ih (s := s₁) (u := { u with store := s₁.store }) rfl h
    · exact ih hu h

theorem writeClipped_of_store {d : Byte} {base : Nat} {x : Window} {s u t : State} (hu : u.store = s.store)
    (h : writeClipped d base x s = .ok t) : ∃ v, writeClipped d base x u = .ok v ∧ v.store = t.store := by
  unfold writeClipped at h ⊢
  rw [State.len_congr hu]
  cases hw : writeBelow d (s.len d) base x s with
  | error f => simp [hw] at h
  | ok s₁ =>
    simp only [hw, writeBelow_of_store hu hw] at h ⊢
    cases h
    exact ⟨_, rfl, by simp⟩

theorem writeResponse_of_store {r : ResponseFrame} {s u t : State} (hu : u.store = s.store) (hp : u.pend = s.pend)
    (h : writeResponse r s = .ok t) : ∃ v, writeResponse r u = .ok v ∧ v.store = t.store := by
  unfold writeResponse responseBase at h ⊢
  rw [hp]
  refine writeClipped_of_store ?_ h
  rw [extend_of_store hu]

/-- The store and the pending request decide the store a completed response leaves. -/
theorem complete_store_of_store {r : ResponseFrame} {rest : Window} {s u t : State} (hu : u.store = s.store)
    (hp : u.pend = s.pend) (h : complete r rest s = .ok t) : ∃ v, complete r rest u = .ok v ∧ v.store = t.store := by
  unfold complete at h ⊢
  cases hw : writeResponse r (checkLength r (checkResponseCrc r s)) with
  | error f => simp [hw] at h
  | ok s₁ =>
    obtain ⟨u₁, hu₁, hstore⟩ := writeResponse_of_store (u := checkLength r (checkResponseCrc r u))
      (by simp [checkLength, checkResponseCrc, hu]) (by simp [checkLength, checkResponseCrc, hp]) hw
    simp only [hw, hu₁] at h ⊢
    cases h
    exact ⟨_, rfl, by simp [finishResponse, hstore]⟩

/-- What the assembly buffer held when a response completes does not matter. -/
theorem complete_of_asm {r : ResponseFrame} {rest : Window} {s t : State} (a : Window) (h : complete r rest s = .ok t) :
    complete r rest { s with asm := a } = .ok t := by
  obtain ⟨v, hv, hstore⟩ := complete_store_of_store (s := s) (u := { s with asm := a }) rfl rfl h
  obtain ⟨t', ht', htframe, -⟩ := complete_spec r rest s
  obtain ⟨v', hv', hvframe, -⟩ := complete_spec r rest { s with asm := a }
  cases ht'.symm.trans h
  cases hv'.symm.trans hv
  rw [hv, hvframe, State.len_congr hstore, hstore]
  exact congrArg Except.ok htframe.symm

/-- A proper part of a response's bytes, up to its trailer's last byte, is held. -/
theorem awaitStep_partial {response : Window} {fc bc : Byte} {k : Nat} {s : State} (hs : s.asm = [])
    (hfc : response[1]? = some fc) (he : isExceptionCode fc = false) (hbc : response[2]? = some bc)
    (hlen : response.length = bc.toNat + 5) (hk : k < response.length) :
    awaitStep (response.take k) s = .ok (hold (response.take k) s) := by
  have htake : (response.take k).length = k := List.length_take_of_le hk.le
  unfold awaitStep
  rw [hs, List.nil_append]
  by_cases hshort : k ≤ 4
  · rw [decodeAwait_short (htake.trans_le hshort)]
  · rw [decodeAwait_incomplete (fc := fc) (bc := bc) (by omega) (by rw [List.getElem?_take_of_lt (by omega), hfc]) he
      (by rw [List.getElem?_take_of_lt (by omega), hbc]) (by omega)]

end Sys2Proof.Machine
end

section
/-! PROOFS. The statements about the correlator (41_correlator.md). -/

namespace Sys2Proof.Machine

/-! ### Frame classes -/

/-- Settles O14: a noise window's event holds the window's length, and a short one's fits the field. -/
theorem discardedWindowOnlyReports : Obligations.DiscardedWindowOnlyReports := by
  refine ⟨fun _ => rfl, fun dev rest s h => ?_, fun dev fc rest s => ⟨windowLength (dev :: fc :: rest), fun h => ?_, ?_⟩⟩
  · rw [← windowLength_of_lt (by omega)]
    rfl
  · rw [windowLength_of_lt h, BitVec.toNat_ofNat, Nat.mod_eq_of_lt h]
  · rw [BitVec.ofNat_toNat]
    rfl

/-- Settles O15: the CRC decides only whether the warning stands before REQUEST_CAPTURED. -/
theorem requestIsCaptured : Obligations.RequestIsCaptured := by
  intro q rest now s
  rw [exec, execWRequest, capture, checkRequestCrc_eq, RequestFrame.take_bytes, ← List.append_assoc]
  simp only [BitVec.ofNat_toNat]
  rfl

/-- Settles O16, with the event's fields as numbers. -/
theorem exceptionInIdleOnlyReports : Obligations.ExceptionInIdleOnlyReports := by
  intro e rest s
  rw [exec, execWExceptionIdle, idleException, Event.exceptionFrame_eq]
  rfl

/-- Settles O17: both classes hold the buffer. -/
theorem incompleteBufferIsHeld : Obligations.IncompleteBufferIsHeld := fun _ _ => ⟨rfl, rfl⟩

/-- Settles O18: the pending fields but `valid` are the old ones. -/
theorem exceptionAbandonsTheRequest : Obligations.ExceptionAbandonsTheRequest := by
  intro e rest s
  refine ⟨awaitException e rest s, rfl, rfl, ?_⟩
  rw [awaitException, Event.exceptionFrame_eq]
  rfl

/-- Settles O19: what a completed response does, with the length of its device's buffer in closed form. -/
theorem completeResponseIsStored : Obligations.CompleteResponseIsStored := by
  rintro r rest s base bc len hs hbase rfl hgrown
  have hbase : responseBase s = base := hbase.symm
  obtain ⟨t, hrun, hframe, hlen, halloc, hother, hbyte, -⟩ := complete_spec r rest s
  rw [extendedLen_of_wf hs, hbase, ← hgrown] at hlen
  rw [hbase, hlen] at hbyte
  rw [responseEvents_eq, hbase, hlen] at hframe
  have hpend : t.pend = { s.pend with valid := false } := by rw [hframe]
  refine ⟨t, outcome_eq_next.mpr hrun, by rw [hpend], ?_, by simp [halloc], hlen, fun d hd => ?_, fun a h₁ h₂ h₃ => ?_,
    fun a hout ha => ?_, fun a hout h₁ h₂ => ?_⟩
  · refine hframe.trans ?_
    rw [hpend]
    simp only [List.append_assoc]
  · exact ⟨by simp [halloc, hd], by simp [State.len, hother d hd], fun a => by simp [byte?_eq, hother d hd]⟩
  · rw [hbyte, if_pos ⟨h₁, h₂, h₃⟩]
  · rw [hbyte, if_neg (by omega), if_pos ha]
  · rw [hbyte, if_neg (by omega), if_neg (by omega), if_pos h₂]

/-! ### STEP -/

/-- Settles O21: each way a STEP goes is the meaning of the class its window decodes to. -/
theorem stepRunsTheClassOfItsWindow : Obligations.StepRunsTheClassOfItsWindow := by
  refine fun w now s => ⟨fun hv hlate => ?_, fun hv hintime => ?_, fun hv => ?_⟩
  · have htimedOut : s.timedOut now = true := by simpa [State.timedOut, hv] using hlate
    refine ⟨{ s.pend with valid := false }, _, rfl, outcome_eq_next.mpr (correlate_of_timedOut htimedOut), ?_⟩
    rw [exec_idleWindow, BitVec.ofNat_toNat, BitVec.ofNat_toNat]
    rfl
  · obtain ⟨t, ht⟩ := correlate_ok w now s
    refine ⟨t, outcome_eq_next.mpr ht, ?_⟩
    rw [correlate_of_inTime hv hintime] at ht
    exact (exec_awaitBuffer w s.clearOut).trans (outcome_eq_next.mpr ht)
  · exact ⟨_, outcome_eq_next.mpr (correlate_of_idle hv), exec_idleWindow w now s.clearOut⟩

/-- Settles O22: the bytes consumed, of which none stay in the assembly buffer. -/
theorem nonEmptyRemainderConsumesFiveBytes : Obligations.NonEmptyRemainderConsumesFiveBytes := by
  intro w now s t hs h hrem
  have hstep := outcome_eq_next.mp h
  have hasm := correlate_asm_of_rem (asmOk_of_inv hs) hstep hrem
  have hconsumed := correlate_consumes hstep hrem
  rw [hasm, List.length_nil] at hconsumed
  exact ⟨by omega, hasm⟩

/-- Settles O23: the first part is held, and the second completes the response from the same store and pending request. -/
theorem responseMaySplitAnywhere : Obligations.ResponseMaySplitAnywhere := by
  intro s response fc bc k now₁ now₂ now hv hasm hfc hle hbc hlen _ hk h₁ h₂ hnow
  have he : isExceptionCode fc = false := (isExceptionCode_eq_false_iff fc).mpr hle
  obtain ⟨r, rest, rfl, hdata, hbytes⟩ := exists_responseFrame hlen.ge hfc hbc
  have hcount : r.data.length ≤ 255 := hdata ▸ Nat.le_of_lt_succ bc.isLt
  have hdecode : decodeAwait response = .response r rest := hbytes ▸ decodeAwait_response he hcount rest
  obtain ⟨t, ht, -⟩ := complete_spec r rest s.clearOut
  refine ⟨hold (response.take k) s.clearOut, t, outcome_eq_next.mpr ?_, rfl, outcome_eq_next.mpr ?_,
    outcome_eq_next.mpr ?_⟩
  · rw [correlate_of_inTime hv h₁]
    exact awaitStep_partial (s := s.clearOut) hasm hfc he hbc hlen (by omega)
  · have hheld : (hold (response.take k) s.clearOut).clearOut.asm = response.take k := rfl
    rw [correlate_of_inTime (s := hold (response.take k) s.clearOut) hv h₂, awaitStep, hheld, List.take_append_drop, hdecode]
    exact complete_of_asm (s := s.clearOut) _ ht
  · rw [correlate_of_inTime hv hnow, awaitStep, State.clearOut_asm, hasm, List.nil_append, hdecode]
    exact ht

/-! ### READ -/

/-- Settles O25: the loop's first STEP, and the READ of its REM with the first STEP's events before its own. -/
theorem readRunsStepsUntilNoRemainder : Obligations.ReadRunsStepsUntilNoRemainder := by
  refine ⟨fun _ _ => rfl, fun w now s s₁ hw h₁ hrem => ?_, fun w now s s₁ s₂ hw h₁ hrem h₂ => ?_⟩
  all_goals
    rw [exec, execRead, outcome_eq_next, readWindow_of_ne_nil hw, drainBound]
    rw [exec, execStep, outcome_eq_next] at h₁
  · rw [drain_of_empty h₁ hrem, List.nil_append]
  · rw [exec, execRead, outcome_eq_next, readWindow_of_ne_nil hrem] at h₂
    have hconsumed := correlate_consumes h₁ hrem
    have hbound : drainBound s₁ s₁.out.rem ≤ (s.asm.length + w.length) / 5 := by
      unfold drainBound
      omega
    have hrest := drain_append s₁.out.evt (drain_mono hbound h₂)
    rw [List.append_nil] at hrest
    rw [drain_of_rem h₁ hrem, List.nil_append]
    exact hrest

/-- Settles O26: the loop ends within each bound, and where it ends its result does not depend on the bound. -/
theorem readTerminatesWithinItsBound : Obligations.ReadTerminatesWithinItsBound := by
  intro w now s hw
  obtain ⟨t, ht⟩ := drain_ok (n := drainBound s w) (s := s) (w := w) (by unfold drainBound; omega) now []
  refine ⟨t, outcome_eq_next.mpr ((readWindow_of_ne_nil hw now s).trans ht), ht, fun hs hv => ?_, fun hs => ?_⟩
  · have hasm := asm_eq_nil_of_idle (asmOk_of_inv hs) hv
    obtain ⟨u, hu⟩ := drain_ok (n := w.length / 5 + 1) (s := s) (w := w) (by rw [hasm, List.length_nil]; omega) now []
    exact drain_eq_of_ok ht hu
  · obtain ⟨u, hu⟩ := drain_ok_of_asmOk (w := w) (asmOk_of_inv hs) now []
    exact drain_eq_of_ok ht hu

end Sys2Proof.Machine
end

section
/-! SUPPORT. Where the growth loop ends (42_register_store.md R131), and what any sequence of Extend calls keeps (R125). -/

namespace Sys2Proof.Machine

/-! ### Where the growth loop ends -/

/-- Where the loop's condition does not hold, every further pass leaves the candidate. -/
theorem growLoop_of_ended {req cand : Nat} (h : ¬(req > cand ∧ cand < 65535)) (n : Nat) : growLoop n req cand = cand := by
  cases n with
  | zero => rfl
  | succ n => exact if_neg h

/-- Passes run in two goes. -/
theorem growLoop_add (m n req cand : Nat) : growLoop (m + n) req cand = growLoop n req (growLoop m req cand) := by
  induction m generalizing cand with
  | zero => rw [Nat.zero_add, growLoop]
  | succ m ih =>
    rw [Nat.succ_add, growLoop, growLoop]
    by_cases h : req > cand ∧ cand < Config.storeGrowLimit
    · rw [if_pos h, if_pos h, ih]
    · rw [if_neg h, if_neg h, growLoop_of_ended h]

/-- The loop ends within as many passes as take the candidate to the limit. -/
theorem growLoop_ended {n cand : Nat} (hn : 65535 ≤ cand + 4096 * n) (req : Nat) :
    ¬(req > growLoop n req cand ∧ growLoop n req cand < 65535) := by
  induction n generalizing cand with
  | zero =>
    rw [growLoop]
    omega
  | succ n ih =>
    rw [growLoop]
    by_cases h : req > cand ∧ cand < Config.storeGrowLimit
    · rw [if_pos h]
      exact ih (by simp only [Config.storeIncrement]; omega)
    · rwa [if_neg h]

/-! ### What Extend calls keep -/

/-- Extend covers the size it is called with, up to 65536 bytes. -/
theorem extend_covers {s : State} (hs : Store.wf s.store = true) (d : Byte) (req : Nat) :
    min req 65536 ≤ (extend d req s).len d := by
  obtain ⟨-, hlen, -⟩ := extend_spec d req s
  rw [hlen, extendedLen_of_wf hs]
  omega

theorem byte?_eq_none_of_len_le {s : State} {d : Byte} {a : Nat} (h : s.len d ≤ a) : s.byte? d a = none := by
  simpa [Nat.not_lt.mpr h] using byte?_isSome s d a

theorem len_of_buffer?_eq {s t : State} {d : Byte} (h : t.buffer? d = s.buffer? d) : t.len d = s.len d := by
  simp [State.len, h]

theorem byte?_of_buffer?_eq {s t : State} {d : Byte} (h : t.buffer? d = s.buffer? d) (a : Nat) :
    t.byte? d a = s.byte? d a := by
  simp [byte?_eq, h]

/-- A device whose buffer is as before has no byte past the old length. -/
theorem byte?_zeroExtended_of_buffer?_eq {s t : State} {d : Byte} (h : t.buffer? d = s.buffer? d) (a : Nat) :
    t.byte? d a = if a < s.len d then s.byte? d a else if a < t.len d then some 0 else none := by
  rw [byte?_of_buffer?_eq h, len_of_buffer?_eq h]
  by_cases ha : a < s.len d
  · rw [if_pos ha]
  · rw [if_neg ha, if_neg ha, byte?_eq_none_of_len_le (Nat.not_lt.mp ha)]

/-- No buffer shrinks, every old byte is kept, and every byte past the old length is 0. -/
def ZeroExtends (s t : State) : Prop := StoreGrows s t ∧
  ∀ d a, t.byte? d a = if a < s.len d then s.byte? d a else if a < t.len d then some 0 else none

theorem ZeroExtends.refl (s : State) : ZeroExtends s s := ⟨.of_store_eq rfl, fun _ => byte?_zeroExtended_of_buffer?_eq rfl⟩

theorem ZeroExtends.trans {s t u : State} (h₁ : ZeroExtends s t) (h₂ : ZeroExtends t u) : ZeroExtends s u := by
  obtain ⟨hst, hbyte₁⟩ := h₁
  obtain ⟨htu, hbyte₂⟩ := h₂
  refine ⟨hst.trans htu, fun d a => ?_⟩
  have hle₁ : s.len d ≤ t.len d := (hst d).1
  have hle₂ : t.len d ≤ u.len d := (htu d).1
  by_cases ht : a < t.len d
  · rw [hbyte₂, if_pos ht, hbyte₁, if_pos ht, if_pos (ht.trans_le hle₂)]
  · have hs : ¬a < s.len d := fun hs => ht (hs.trans_le hle₁)
    rw [hbyte₂, if_neg ht, if_neg hs]

theorem zeroExtends_extend (d : Byte) (req : Nat) (s : State) : ZeroExtends s (extend d req s) := by
  obtain ⟨-, -, -, hother, hbyte⟩ := extend_spec d req s
  refine ⟨storeGrows_extend d req s, fun d' => ?_⟩
  by_cases hd : d' = d
  · exact hd ▸ hbyte
  · exact byte?_zeroExtended_of_buffer?_eq (hother d' hd)

/-- Whatever one Extend call keeps, any sequence of them keeps. -/
theorem foldl_extend_induction {R : State → State → Prop} (refl : ∀ s, R s s) (trans : ∀ {s t u}, R s t → R t u → R s u)
    (hextend : ∀ d req s, R s (extend d req s)) (calls : List (Byte × Nat)) (s : State) :
    R s (calls.foldl (fun u c => extend c.1 c.2 u) s) := by
  induction calls generalizing s with
  | nil => exact refl s
  | cons c calls ih => exact trans (hextend c.1 c.2 s) (ih _)

theorem Store.wf_foldl_extend {s : State} (hs : Store.wf s.store = true) (calls : List (Byte × Nat)) :
    Store.wf (calls.foldl (fun u c => extend c.1 c.2 u) s).store = true :=
  foldl_extend_induction (R := fun s t => Store.wf s.store = true → Store.wf t.store = true) (fun _ => id)
    (fun h₁ h₂ => h₂ ∘ h₁) (fun d req _ h => Store.wf_extend h d req) calls s hs

theorem zeroExtends_foldl_extend (calls : List (Byte × Nat)) (s : State) :
    ZeroExtends s (calls.foldl (fun u c => extend c.1 c.2 u) s) :=
  foldl_extend_induction .refl .trans zeroExtends_extend calls s

end Sys2Proof.Machine
end

section
/-! PROOFS. The statements about growth (42_register_store.md). -/

namespace Sys2Proof.Machine

/-- Settles O39, by what Extend does and the closed form of the length it gives. -/
theorem extendGrowsItsDevice : Obligations.ExtendGrowsItsDevice := by
  intro d size s hs
  obtain ⟨hframe, hlen, -, hother, hbyte⟩ := extend_spec d size.toNat s
  rw [extendedLen_of_wf hs] at hlen
  refine ⟨_, rfl, ?_, extend_alloc_self d size.toNat s, hlen, fun a ha => (hbyte a).trans (if_pos ha),
    fun a h₁ h₂ => (hbyte a).trans ((if_neg (Nat.not_lt.mpr h₁)).trans (if_pos h₂)), fun d' hd => ?_⟩
  · rw [hframe]
    rfl
  · have hbuffer := hother d' hd
    exact ⟨congrArg Option.isSome hbuffer, len_of_buffer?_eq hbuffer, byte?_of_buffer?_eq hbuffer⟩

/-- Settles O40: `ZeroExtends` and the store's canonical form are kept by every call, and a call's size stays covered by the
calls after it. -/
theorem growthOverAnySequence : Obligations.GrowthOverAnySequence := by
  rintro calls s t hs rfl
  obtain ⟨hgrows, hbyte⟩ := zeroExtends_foldl_extend calls s
  refine ⟨fun d => ⟨(hgrows d).1, fun ha => (legalLen_iff _).mp (legalLen_of_alloc (Store.wf_foldl_extend hs calls) ha),
    fun a ha => ?_, fun a h₁ h₂ => ?_⟩, fun c hc => ?_⟩
  · rw [hbyte, if_pos ha]
  · rw [hbyte, if_neg (Nat.not_lt.mpr h₁), if_pos h₂]
  · obtain ⟨before, after, rfl⟩ := List.append_of_mem hc
    rw [List.foldl_append, List.foldl_cons]
    set u := before.foldl (fun u c => extend c.1 c.2 u) s
    obtain ⟨hafter, -⟩ := zeroExtends_foldl_extend after (extend c.1 c.2 u)
    obtain ⟨hle, halloc⟩ := hafter c.1
    exact ⟨halloc (extend_alloc_self _ _ _), (extend_covers (Store.wf_foldl_extend hs before) c.1 c.2).trans hle⟩

/-- Settles O42: 16 passes reach the limit from any candidate, and further passes leave where the loop has ended. -/
theorem growthLoopEndsWithinSixteenPasses : Obligations.GrowthLoopEndsWithinSixteenPasses := by
  refine ⟨fun n req cand hn => ?_, fun req => ?_, fun old req hmod hlo hhi => ?_⟩
  · have hended := growLoop_ended (n := 16) (cand := cand) (by omega) req
    obtain ⟨k, rfl⟩ := Nat.exists_eq_add_of_le hn
    rw [growLoop_add, growLoop_of_ended hended]
    exact ⟨rfl, hended⟩
  · simpa using extendedLen_eq none req (by simp)
  · have hlegal : legalLen old = true := (legalLen_iff old).mpr ⟨hmod, hlo, hhi⟩
    rw [extendedLen_eq (some old) req (by simpa using hlegal), Option.getD_some, max_eq_left hlo]

/-- Settles O41, by running the growth loop on each row of the table. -/
theorem growthTable : Obligations.GrowthTable := by
  unfold Obligations.GrowthTable
  decide

end Sys2Proof.Machine
end

section
/-! SUPPORT. The accessors' results as numbers and what an absent read answers (43_accessors.md R133 to R141), what DUMP returns
(R142), and what the commands that only read the store leave unchanged (R143). -/

namespace Sys2Proof.Machine

/-! ### The bytes of a value as a number -/

theorem toNat_int16 (o : ByteOrder) (b0 b1 : Byte) : (int16 o b0 b1).toNat = match o with
    | .le => b0.toNat + b1.toNat * 256
    | .be => b0.toNat * 256 + b1.toNat := by
  cases o with
  | le => exact toNat_le16 b0 b1
  | be => exact toNat_be16 b0 b1

theorem toNat_le32_bytes (b0 b1 b2 b3 : Byte) :
    (le32 b0 b1 b2 b3).toNat = b0.toNat + b1.toNat * 2 ^ 8 + b2.toNat * 2 ^ 16 + b3.toNat * 2 ^ 24 := by
  rw [toNat_le32, toNat_le16, toNat_le16]
  omega

theorem toNat_be32_bytes (b0 b1 b2 b3 : Byte) :
    (be32 b0 b1 b2 b3).toNat = b0.toNat * 2 ^ 24 + b1.toNat * 2 ^ 16 + b2.toNat * 2 ^ 8 + b3.toNat := by
  rw [be32_eq_le32, toNat_le32_bytes]
  omega

theorem toNat_int32 (o : ByteOrder) (b0 b1 b2 b3 : Byte) : (int32 o b0 b1 b2 b3).toNat = match o with
    | .le => b0.toNat + b1.toNat * 2 ^ 8 + b2.toNat * 2 ^ 16 + b3.toNat * 2 ^ 24
    | .be => b0.toNat * 2 ^ 24 + b1.toNat * 2 ^ 16 + b2.toNat * 2 ^ 8 + b3.toNat := by
  cases o with
  | le => exact toNat_le32_bytes b0 b1 b2 b3
  | be => exact toNat_be32_bytes b0 b1 b2 b3

theorem eq_ofNat_of_toNat {n u : Nat} {x : BitVec n} (hu : u = x.toNat) : x = BitVec.ofNat n u := by
  rw [hu, BitVec.ofNat_toNat, BitVec.setWidth_eq]

/-- A pattern that is a given number unsigned, read as two's complement (R136, R138). -/
theorem toInt_of_toNat {n u : Nat} {x : BitVec (n + 1)} (hu : u = x.toNat) :
    x.toInt = if u < 2 ^ n then (u : Int) else (u : Int) - 2 ^ (n + 1) := by
  have hhalf : 2 * x.toNat < 2 ^ (n + 1) ↔ u < 2 ^ n := by
    rw [hu, Nat.pow_succ]
    omega
  simp [BitVec.toInt_eq_toNat_cond, hhalf, hu]

/-! ### The accessors' answers -/

section
variable {s : State} {d : Byte} {idx : Half}

/-- A read is out of range when the device is unknown or its buffer ends before the read does (R133, R134). -/
theorem inRange_eq_false {n : Nat} (h : s.alloc d = false ∨ s.len d < 2 * idx.toNat + n) : s.inRange d idx n = false := by
  rcases h with hunknown | hshort
  · simp [State.inRange, hunknown]
  · have hout : ¬registerOffset idx + n ≤ s.len d := Nat.not_le.mpr hshort
    simp [State.inRange, hout]

theorem outcome_access2_absent (f : Byte → Byte → Word) (h : s.alloc d = false ∨ s.len d < 2 * idx.toNat + 2) :
    outcome (access2 f d idx s) = .next { s with out := Ports.default } :=
  outcome_eq_next.mpr (access2_absent f (inRange_eq_false h))

theorem outcome_access4_absent (f : Byte → Byte → Byte → Byte → Word)
    (h : s.alloc d = false ∨ s.len d < 2 * idx.toNat + 4) :
    outcome (access4 f d idx s) = .next { s with out := Ports.default } :=
  outcome_eq_next.mpr (access4_absent f (inRange_eq_false h))

/-- An accessor of width 2 whose bytes are present answers the value they combine to. -/
theorem outcome_access2_value {b0 b1 : Byte} {v : Word} {f : Byte → Byte → Word} (hv : f b0 b1 = v)
    (h0 : s.byte? d (2 * idx.toNat) = some b0) (h1 : s.byte? d (2 * idx.toNat + 1) = some b1) :
    outcome (access2 f d idx s) = .next { s with out := { Ports.default with res := v, present := true } } := by
  subst hv
  exact outcome_eq_next.mpr (access2_present f h0 h1)

/-- An accessor of width 4 whose bytes are present answers the value they combine to. -/
theorem outcome_access4_value {b0 b1 b2 b3 : Byte} {v : Word} {f : Byte → Byte → Byte → Byte → Word}
    (hv : f b0 b1 b2 b3 = v)
    (h0 : s.byte? d (2 * idx.toNat) = some b0) (h1 : s.byte? d (2 * idx.toNat + 1) = some b1)
    (h2 : s.byte? d (2 * idx.toNat + 2) = some b2) (h3 : s.byte? d (2 * idx.toNat + 3) = some b3) :
    outcome (access4 f d idx s) = .next { s with out := { Ports.default with res := v, present := true } } := by
  subst hv
  exact outcome_eq_next.mpr (access4_present f h0 h1 h2 h3)

end

/-! ### The bytes of a device -/

theorem length_bufferBytes (s : State) (d : Byte) : (s.bufferBytes d).length = s.len d := by
  unfold State.bufferBytes
  cases h : s.buffer? d with
  | none => simp [len_of_unknown h]
  | some b => simp [len_of_buffer h]

theorem getElem?_bufferBytes (s : State) (d : Byte) (a : Nat) : (s.bufferBytes d)[a]? = s.byte? d a := by
  unfold State.bufferBytes
  cases h : s.buffer? d with
  | none => simp [byte?_of_unknown h]
  | some b => by_cases ha : a < b.len <;> simp [byte?_of_buffer h, ha]

/-! ### The commands that only read the store -/

/-- A data command other than EXTEND and the unassigned opcodes leaves the store and reports nothing. -/
theorem exec_dataCommand_quiet {i : Instr} {s t : State} (hi : isDataCommand i = true) (hextend : ∀ d n, i ≠ .extend d n)
    (hillegal : ∀ op, i ≠ .illegal op) (h : exec i s = .next t) : t.store = s.store ∧ t.out.evt = [] := by
  cases i with
  | extend d n => exact absurd rfl (hextend d n)
  | illegal op => exact absurd rfl (hillegal op)
  | geti16 | getu16 =>
    have hrun := outcome_eq_next.mp h
    exact ⟨by rw [access2_frame hrun], access2_evt hrun⟩
  | getf32 | geti32 | getu32 =>
    have hrun := outcome_eq_next.mp h
    exact ⟨by rw [access4_frame hrun], access4_evt hrun⟩
  | crc16 | dump =>
    cases h
    exact ⟨rfl, rfl⟩
  | _ => cases hi

/-- Where the store and INT_BYTE_ORDER decide what an instruction does and it leaves the store, it places the same result ports
in every state with these two and writes nothing else. -/
theorem StoreDecides.exec_eq {i : Instr} {s t : State} (hi : StoreDecides i s) (h : exec i s = .next t)
    (hstore : t.store = s.store) (u : State) (hu : u.store = s.store) (horder : u.order = s.order) :
    exec i u = .next { u with out := t.out } := by
  obtain ⟨st, o, -, hrun⟩ := hi
  cases (hrun s rfl rfl).symm.trans h
  have hst : st = u.store := Eq.trans hstore hu.symm
  rw [hrun u hu horder, hst]

end Sys2Proof.Machine
end

section
/-! PROOFS. The statements about the accessors and DUMP (43_accessors.md). -/

namespace Sys2Proof.Machine

/-- Settles O43: the two bytes make the number, which RES zero-extends. -/
theorem getU16Value : Obligations.GetU16Value := by
  refine ⟨fun d idx s b0 b1 u h0 h1 hu => ?_, fun _ _ _ => outcome_access2_absent _⟩
  have hnat : u = (int16 s.order b0 b1).toNat := hu.trans (toNat_int16 s.order b0 b1).symm
  have hres : resU16 s.order b0 b1 = BitVec.ofNat 32 u := by rw [hnat, BitVec.ofNat_toNat, resU16]
  exact outcome_access2_value hres h0 h1

/-- Settles O44: sign extension keeps the two's-complement value of the 16-bit number. -/
theorem getI16Value : Obligations.GetI16Value := by
  refine ⟨fun d idx s b0 b1 u h0 h1 hu => ?_, fun _ _ _ => outcome_access2_absent _⟩
  have hnat : u = (int16 s.order b0 b1).toNat := hu.trans (toNat_int16 s.order b0 b1).symm
  have hres : resI16 s.order b0 b1 = BitVec.ofInt 32 (if u < 2 ^ 15 then (u : Int) else (u : Int) - 2 ^ 16) :=
    congrArg (BitVec.ofInt 32) (toInt_of_toNat hnat)
  exact outcome_access2_value hres h0 h1

/-- Settles O45: the four bytes make the number. -/
theorem getU32Value : Obligations.GetU32Value := by
  refine ⟨fun d idx s b0 b1 b2 b3 u h0 h1 h2 h3 hu => ?_, fun _ _ _ => outcome_access4_absent _⟩
  have hnat : u = (int32 s.order b0 b1 b2 b3).toNat := hu.trans (toNat_int32 s.order b0 b1 b2 b3).symm
  exact outcome_access4_value (eq_ofNat_of_toNat hnat) h0 h1 h2 h3

/-- Settles O46: GETI32 and GETU32 place one pattern, here read as two's complement. -/
theorem getI32Value : Obligations.GetI32Value := by
  obtain ⟨hpresent, habsent⟩ := getU32Value
  refine ⟨fun d idx s b0 b1 b2 b3 u h0 h1 h2 h3 hu => ⟨hpresent d idx s b0 b1 b2 b3 u h0 h1 h2 h3 hu, ?_⟩, habsent⟩
  have hnat : u = (int32 s.order b0 b1 b2 b3).toNat := hu.trans (toNat_int32 s.order b0 b1 b2 b3).symm
  have hpattern : BitVec.ofNat 32 u = int32 s.order b0 b1 b2 b3 := (eq_ofNat_of_toNat hnat).symm
  rw [hpattern]
  exact toInt_of_toNat hnat

/-- Settles O47: the four bytes make the big-endian number, with no use of INT_BYTE_ORDER. -/
theorem getF32Value : Obligations.GetF32Value :=
  ⟨fun _ _ _ b0 b1 b2 b3 => outcome_access4_value (eq_ofNat_of_toNat (toNat_be32_bytes b0 b1 b2 b3).symm),
    fun _ _ _ => outcome_access4_absent _⟩

/-- Settles O49: DOUT is `State.bufferBytes`, which has the buffer's length and StoreRead's bytes. -/
theorem dumpReturnsTheBuffer : Obligations.DumpReturnsTheBuffer := by
  refine fun d s => ⟨_, rfl, rfl, fun hunknown => ?_, length_bufferBytes s d, getElem?_bufferBytes s d⟩
  rw [← List.length_eq_zero_iff]
  exact (length_bufferBytes s d).trans (len_of_not_alloc hunknown)

/-- Settles O50: an accessor or DUMP is a data command that leaves the store, and the store and INT_BYTE_ORDER decide its
result. -/
theorem readsHaveNoSideEffect : Obligations.ReadsHaveNoSideEffect := by
  intro i s t hi h
  have hread : isDataCommand i = true ∧ (∀ d n, i ≠ .extend d n) ∧ ∀ op, i ≠ .illegal op := by
    rcases hi with ⟨d, idx, rfl | rfl | rfl | rfl | rfl⟩ | ⟨d, rfl⟩ <;> simp [isDataCommand]
  obtain ⟨hdata, hextend, hillegal⟩ := hread
  obtain ⟨hstore, hevt⟩ := exec_dataCommand_quiet hdata hextend hillegal h
  have hrun := (exec_dataCommand hdata s).exec_eq h hstore
  have hframe : t = { s with out := t.out } := Host.Outcome.next.inj (h.symm.trans (hrun s rfl rfl))
  exact ⟨hframe, hevt, hrun t hstore (by rw [hframe]), hrun⟩

end Sys2Proof.Machine
end

section
/-! SUPPORT. CFGW and CFGR by their number, and the STATUS a command answers (30_encoding.md R77). -/

namespace Sys2Proof.Machine

/-! ### CFGW and CFGR by their number -/

/-- CFGW of a read-only or missing register (44_control.md R145). -/
theorem exec_cfgw_illegal {idx : Half} (h : 2 ≤ idx.toNat) (v : Word) (s : State) :
    exec (.cfgw idx v) s = .next { s with out := illegalPorts } := by
  rcases exec_cfgw_cases idx v with ⟨rfl, -⟩ | ⟨rfl, -⟩ | ⟨-, -, hrun⟩
  · exact absurd h (by decide)
  · exact absurd h (by decide)
  · exact hrun s

/-- CFGR of a missing register (44_control.md R147). -/
theorem exec_cfgr_illegal {idx : Half} (h : 3 ≤ idx.toNat) (s : State) :
    exec (.cfgr idx) s = .next { s with out := illegalPorts } := by
  rcases exec_cfgr_cases idx with ⟨rfl, -⟩ | ⟨rfl, -⟩ | ⟨rfl, -⟩ | ⟨-, -, -, hrun⟩
  · exact absurd h (by decide)
  · exact absurd h (by decide)
  · exact absurd h (by decide)
  · exact hrun s

/-- Register ORDER as a condition on INT_BYTE_ORDER (10_state.md R34). -/
theorem orderRegister_eq (o : ByteOrder) : orderRegister o = if o = .be then 1 else 0 := by cases o <;> rfl

/-! ### The status of a command -/

theorem exec_cfgw_status {idx : Half} {v : Word} {s t : State} (h : exec (.cfgw idx v) s = .next t) :
    t.out.status = .illegal ↔ 2 ≤ idx.toNat := by
  rcases exec_cfgw_cases idx v with ⟨rfl, hrun⟩ | ⟨rfl, hrun⟩ | ⟨h0, h1, hrun⟩ <;> cases (hrun s).symm.trans h
  · simp [Ports.default]
  · simp [Ports.default]
  · exact iff_of_true rfl (by bv_omega)

theorem exec_cfgr_status {idx : Half} {s t : State} (h : exec (.cfgr idx) s = .next t) :
    t.out.status = .illegal ↔ 3 ≤ idx.toNat := by
  rcases exec_cfgr_cases idx with ⟨rfl, hrun⟩ | ⟨rfl, hrun⟩ | ⟨rfl, hrun⟩ | ⟨h0, h1, h2, hrun⟩ <;>
    cases (hrun s).symm.trans h
  · simp [Ports.default]
  · simp [Ports.default]
  · simp [Ports.default]
  · exact iff_of_true rfl (by bv_omega)

theorem idleStep_status (w : Window) (now : Nat) (s : State) : (idleStep w now s).out.status = s.out.status := by
  unfold idleStep
  cases decodeIdle w with
  | empty | short | exception | noise => rfl
  | request q rest => simp [capture]

theorem awaitStep_status {w : Window} {s t : State} (h : awaitStep w s = .ok t) : t.out.status = s.out.status := by
  rcases awaitStep_cases w s with ⟨a, -, hrun⟩ | ⟨e, rest, -, hrun⟩ | ⟨r, rest, -, hrun⟩
  · cases hrun.symm.trans h
    rfl
  · cases hrun.symm.trans h
    rfl
  · obtain ⟨u, hu, hframe, -⟩ := complete_spec r rest s
    cases hu.symm.trans (hrun.symm.trans h)
    rw [hframe]

/-- A STEP clears the ports first, and no class of window writes STATUS (41_correlator.md R97). -/
theorem correlate_status {w : Window} {now : Nat} {s t : State} (h : correlate w now s = .ok t) : t.out.status = .ok := by
  rcases correlate_cases w now s with ⟨-, hrun⟩ | ⟨-, -, hrun⟩ | ⟨-, -, hrun⟩
  · cases hrun.symm.trans h
    exact idleStep_status _ _ _
  · exact awaitStep_status (s := s.clearOut) (hrun.symm.trans h)
  · cases hrun.symm.trans h
    exact idleStep_status _ _ _

/-- READ places its events on ports that are otherwise at their defaults (41_correlator.md R115). -/
theorem readWindow_status {w : Window} {now : Nat} {s t : State} (h : readWindow w now s = .ok t) :
    t.out.status = .ok := by
  by_cases hw : w = []
  · subst hw
    cases h
    rfl
  · rw [readWindow_of_ne_nil hw] at h
    have ht : t = { t with out := { Ports.default with evt := t.out.evt } } :=
      Except.ok.inj (h.symm.trans (drain_append [] h))
    rw [ht]
    rfl

@[simp] theorem readPorts_status (v : Option Word) : (readPorts v).status = .ok := by cases v <;> rfl

/-- Every command but CFGW, CFGR and an unassigned opcode answers OK. -/
theorem exec_status_ok {i : Instr} {s t : State} (hi : i.isCommand = true) (hcfgw : ∀ idx v, i ≠ .cfgw idx v)
    (hcfgr : ∀ idx, i ≠ .cfgr idx) (hillegal : ∀ op, i ≠ .illegal op) (h : exec i s = .next t) : t.out.status = .ok := by
  cases i with
  | step w now => exact correlate_status (outcome_eq_next.mp h)
  | read w now => exact readWindow_status (outcome_eq_next.mp h)
  | geti16 d idx | getu16 d idx =>
    obtain ⟨v, hv, -⟩ := access2_spec _ d idx s
    cases hv.symm.trans (outcome_eq_next.mp h)
    exact readPorts_status v
  | getf32 d idx | geti32 d idx | getu32 d idx =>
    obtain ⟨v, hv, -⟩ := access4_spec _ d idx s
    cases hv.symm.trans (outcome_eq_next.mp h)
    exact readPorts_status v
  | crc16 | extend | dump | reset =>
    cases h
    rfl
  | cfgw idx v => exact absurd rfl (hcfgw idx v)
  | cfgr idx => exact absurd rfl (hcfgr idx)
  | illegal op => exact absurd rfl (hillegal op)
  | _ => cases hi

end Sys2Proof.Machine
end

section
/-! PROOFS. The statements about the configuration commands and STATUS (44_control.md). -/

namespace Sys2Proof.Machine

/-- Settles O37: CFGW and CFGR by their number, an unassigned opcode always, and no other command. -/
theorem statusIsIllegalOnlyThere : Obligations.StatusIsIllegalOnlyThere := by
  intro i s t hi h
  cases i with
  | cfgw idx v => simpa using exec_cfgw_status h
  | cfgr idx => simpa using exec_cfgr_status h
  | illegal op =>
    cases (exec_illegal op s).symm.trans h
    exact iff_of_true rfl (.inr (.inr ⟨op, rfl⟩))
  | _ =>
    have hok : t.out.status = .ok := exec_status_ok hi (by simp) (by simp) (by simp) h
    simp [hok]

/-- Settles O52: the two writable registers by evaluation, any other number by R145. -/
theorem cfgwWritesItsRegister : Obligations.CfgwWritesItsRegister :=
  fun v s => ⟨rfl, rfl, fun _ h => exec_cfgw_illegal h v s⟩

/-- Settles O53: the three registers by evaluation, any other number by R147. -/
theorem cfgrReadsItsRegister : Obligations.CfgrReadsItsRegister := by
  refine fun s => ⟨rfl, rfl, ?_, fun _ h => exec_cfgr_illegal h s⟩
  rw [← orderRegister_eq]
  rfl

end Sys2Proof.Machine
end

section
/-! SUPPORT. Every command and every frame class completes, in every state (60_exceptions.md R152). -/

namespace Sys2Proof.Machine

/-- READ completes: an empty window runs no STEP, and any other drains within its bound (41_correlator.md R115, R116). -/
theorem exec_read_completes (w : Window) (now : Nat) (s : State) : ∃ t, exec (.read w now) s = .next t := by
  by_cases hw : w = []
  · subst hw
    exact ⟨s.clearOut, rfl⟩
  · obtain ⟨t, ht, -⟩ := readTerminatesWithinItsBound w now s hw
    exact ⟨t, ht⟩

/-- A STEP answers for every window, READ's loop ends, and a data command reads the store inside its domain alone (20_memory.md
R45). -/
theorem exec_command_completes {i : Instr} (hi : i.isCommand = true) (s : State) : ∃ t, exec i s = .next t := by
  rcases command_cases hi with ⟨w, now, rfl⟩ | ⟨w, now, rfl⟩ | ⟨idx, v, rfl⟩ | ⟨idx, rfl⟩ | rfl | hdata
  · obtain ⟨t, ht⟩ := correlate_ok w now s
    exact ⟨t, outcome_eq_next.mpr ht⟩
  · exact exec_read_completes w now s
  · rcases exec_cfgw_cases idx v with ⟨-, hrun⟩ | ⟨-, hrun⟩ | ⟨-, -, hrun⟩
    all_goals exact ⟨_, hrun s⟩
  · rcases exec_cfgr_cases idx with ⟨-, hrun⟩ | ⟨-, hrun⟩ | ⟨-, hrun⟩ | ⟨-, -, -, hrun⟩
    all_goals exact ⟨_, hrun s⟩
  · exact ⟨_, exec_reset s⟩
  · obtain ⟨st, o, -, hrun⟩ := exec_dataCommand hdata s
    exact ⟨_, hrun s rfl rfl⟩

/-- Only a complete response touches the store, and it writes inside the buffer alone (42_register_store.md R126). -/
theorem exec_frame_completes {i : Instr} (hi : i.isCommand = false) (s : State) : ∃ t, exec i s = .next t := by
  cases i with
  | aResponse r rest =>
    obtain ⟨t, ht, -⟩ := complete_spec r rest s
    exact ⟨t, outcome_eq_next.mpr ht⟩
  | wEmpty | wShort | wRequest | wExceptionIdle | wNoise | aHoldShort | aException | aHoldIncomplete => exact ⟨_, rfl⟩
  | _ => cases hi

theorem exec_completes (i : Instr) (s : State) : ∃ t, exec i s = .next t := by
  cases hi : i.isCommand with
  | true => exact exec_command_completes hi s
  | false => exact exec_frame_completes hi s

/-- A step waits or runs one command, so it completes as its command does. -/
theorem step_completes (s : State) : ∃ t, step s = .next t := by
  cases hc : s.cmds with
  | nil => exact ⟨s, step_of_nil hc⟩
  | cons c rest =>
    rw [step_of_cons hc]
    exact exec_completes _ _

end Sys2Proof.Machine
end

section
/-! PROOFS. The statement that no command traps, halts or faults (60_exceptions.md R152). -/

namespace Sys2Proof.Machine

/-- Settles O11: every instruction completes, and so does a step, whether or not a command is issued. -/
theorem noCommandTrapsHaltsOrFaults : Obligations.NoCommandTrapsHaltsOrFaults := ⟨step_completes, exec_completes⟩

end Sys2Proof.Machine
end

section
/-! PROOFS. The statement about responses to a request from register 32768 up (70_reset_and_hazards.md R187). -/

namespace Sys2Proof.Machine

/-- The length Extend gives a device of a well-formed store when it is asked for 65536 bytes or more. -/
theorem grownLen_eq_of_le {len req : Nat} (hlen : len ≤ 65536) (hreq : 65536 ≤ req) :
    max (max len 4096) (min 65536 (4096 * ((req + 4095) / 4096))) = 65536 := by
  omega

/-- Settles O20, from what a completed response does: the first data byte's offset is 65536 or more, where the largest buffer
ends, so every offset of the buffer lies below the data. -/
theorem highRegistersAreNeverStored : Obligations.HighRegistersAreNeverStored := by
  intro r rest s hs hstart _
  have hbase : 65536 ≤ 2 * s.pend.start.toNat := by omega
  have hle : s.len r.dev ≤ 65536 := len_le_of_wf hs r.dev
  obtain ⟨t, hrun, hvalid, hframe, halloc, hlen, hother, -, hkept, hadded⟩ :=
    completeResponseIsStored r rest s (2 * s.pend.start.toNat) r.data.length 65536 hs rfl rfl
      (grownLen_eq_of_le hle (by omega)).symm
  refine ⟨t, hrun, hvalid, halloc, hlen, fun a ha => hkept a (.inl (by omega)) ha,
    fun a h₁ h₂ => hadded a (.inl (by omega)) h₁ h₂, hother, fun hdata => ?_⟩
  have hbc : 0 < r.data.length := List.length_pos_iff.mpr hdata
  have hclipped : ¬(2 * s.pend.start.toNat + r.data.length ≤ 65536 ∨ r.data.length = 0) := by omega
  rw [hframe, if_neg hclipped, max_eq_left hbase, Nat.sub_eq_zero_of_le hbase, Nat.sub_zero]
  simp

end Sys2Proof.Machine
end

section
/-! SUPPORT. What the decoders and the encoder say of each other (30_encoding.md R71, R72, R78, R79). -/

namespace Sys2Proof

/-- A command word's OP and operands decode back; an unassigned OP is the row's own condition (R79, R80). -/
theorem decode_encode_command {i : Instr} (hi : i.isCommand = true) (hwf : i.wf = true) : decode (encode i) = i := by
  cases i with
  | illegal op =>
    have hop : op ∉ assignedOpcodes := by simpa [Instr.wf] using hwf
    rw [encode, encodeWord, decode, decodeCommand_of_unassigned (by rwa [op_commandWord]), op_commandWord]
  | step | read | crc16 | extend | getf32 | geti16 | getu16 | geti32 | getu32 | dump | cfgw | cfgr | reset =>
    simp only [encode, encodeWord, decode, decodeCommand, op_commandWord, dev_commandWord, idx_commandWord, arg_commandWord]
    rfl
  | _ => cases hi

/-- A frame's bytes, and a window that is decoded whole, decode back under the row's own condition (R71, R72). -/
theorem decode_encode_frame {i : Instr} (hi : i.isCommand = false) (hwf : i.wf = true) : decode (encode i) = i := by
  cases i with
  | wEmpty => rfl
  | wShort dev rest =>
    have hlen : rest.length ≤ 3 := by simpa [Instr.wf] using hwf
    rw [encode, decode, decodeIdle_short dev hlen, IdleFrame.toInstr]
  | wRequest q rest now => rw [encode, decode, decodeIdle_request, IdleFrame.toInstr]
  | wExceptionIdle e rest => rw [encode, decode, decodeIdle_exception hwf, IdleFrame.toInstr]
  | wNoise dev fc rest =>
    obtain ⟨⟨hlen, hfc⟩, hshort⟩ : (3 ≤ rest.length ∧ isExceptionCode fc = false) ∧ (fc ≠ 0x04 ∨ rest.length < 6) := by
      simpa [Instr.wf] using hwf
    have hnoRequest (h4 : fc = 0x04) : rest.length ≤ 5 := Nat.le_of_lt_succ (hshort.resolve_left (not_not.mpr h4))
    rw [encode, decode, decodeIdle_noise dev hlen hfc hnoRequest, IdleFrame.toInstr]
  | aHoldShort a =>
    have hlen : a.length ≤ 4 := by simpa [Instr.wf] using hwf
    rw [encode, decode, decodeAwait_short hlen, AwaitFrame.toInstr]
  | aException e rest => rw [encode, decode, decodeAwait_exception hwf, AwaitFrame.toInstr]
  | aHoldIncomplete a =>
    match a with
    | dev :: fc :: bc :: rest =>
      obtain ⟨hlen, hfc, hshort⟩ : 5 ≤ (dev :: fc :: bc :: rest).length ∧ isExceptionCode fc = false ∧
          (dev :: fc :: bc :: rest).length < bc.toNat + 5 := by
        simpa [Instr.wf, functionCode?, byteCount?] using hwf
      rw [encode, decode, decodeAwait_incomplete hlen rfl hfc rfl (by omega), AwaitFrame.toInstr]
    | [] | [_] | [_, _] => simp [Instr.wf] at hwf
  | aResponse r rest =>
    obtain ⟨hfc, hlen⟩ : isExceptionCode r.fc = false ∧ r.data.length ≤ 255 := by simpa [Instr.wf] using hwf
    rw [encode, decode, decodeAwait_response hfc hlen, AwaitFrame.toInstr]
  | _ => cases hi

/-- What holds of the row a window decodes to: it is well formed, no command, and encoded again it gives the window's bytes. -/
structure FrameRow (w : Window) (i : Instr) : Prop where
  wf : i.wf = true
  isCommand : i.isCommand = false
  wire : (encode i).wire? = some w

theorem frameRow_idleWindow (w : Window) (now : Nat) : FrameRow w (decode (.idleWindow w now)) := by
  rw [decode]
  rcases decodeIdle_cases w with ⟨rfl, hd⟩ | ⟨dev, rest, rfl, hlen, hd⟩ | ⟨q, rest, rfl, hd⟩ | ⟨e, rest, rfl, he, hd⟩ |
    ⟨dev, fc, rest, rfl, hlen, hfc, hshort, hd⟩
  all_goals rw [hd]
  · exact ⟨rfl, rfl, rfl⟩
  · exact ⟨decide_eq_true hlen, rfl, rfl⟩
  · exact ⟨rfl, rfl, rfl⟩
  · exact ⟨he, rfl, rfl⟩
  · refine ⟨?_, rfl, rfl⟩
    have hnoRequest : ¬(fc = 0x04 ∧ 6 ≤ rest.length) := fun ⟨h4, h6⟩ => by
      have := hshort h4
      omega
    rw [IdleFrame.toInstr, Instr.wf, decide_eq_true hlen, hfc, decide_eq_false hnoRequest]
    rfl

theorem frameRow_awaitBuffer (a : Window) : FrameRow a (decode (.awaitBuffer a)) := by
  rw [decode]
  rcases decodeAwait_cases a with ⟨hlen, hd⟩ | ⟨e, rest, rfl, he, hd⟩ | ⟨dev, fc, bc, rest, rfl, hlen, hfc, hshort, hd⟩ |
    ⟨r, rest, rfl, hfc, hlen, hd⟩
  all_goals rw [hd]
  · exact ⟨decide_eq_true hlen, rfl, rfl⟩
  · exact ⟨he, rfl, rfl⟩
  · refine ⟨?_, rfl, rfl⟩
    have hheld : (dev :: fc :: bc :: rest).length < bc.toNat + 5 := by
      simp only [List.length_cons]
      omega
    have hlong : 5 ≤ (dev :: fc :: bc :: rest).length := by
      simp only [List.length_cons]
      omega
    simp only [AwaitFrame.toInstr, Instr.wf, functionCode?, byteCount?, hfc, hheld, hlong, decide_true, Bool.not_false,
      Bool.and_self]
  · refine ⟨?_, rfl, rfl⟩
    rw [AwaitFrame.toInstr, Instr.wf, hfc, decide_eq_true hlen]
    rfl

theorem decodeCommand_wf (c : Command) : (decodeCommand c).wf = true := by
  apply decodeCommand_cases c (fun i => i.wf = true)
  case hillegal =>
    intro hop
    simpa [Instr.wf] using hop
  all_goals rfl

end Sys2Proof
end

section
/-! PROOFS. The statements about decoding and encoding every row (30_encoding.md), and about a step and its command. -/

namespace Sys2Proof.Machine

/-- Settles O4: a command by the fields of its word, a frame class by its bytes. -/
theorem decodeOfEncodeIsTheInstruction : Obligations.DecodeOfEncodeIsTheInstruction := by
  intro i hwf
  cases hi : i.isCommand with
  | true => exact decode_encode_command hi hwf
  | false => exact decode_encode_frame hi hwf

/-- Settles O5, class by class, from the bytes each is read from. -/
theorem frameDecodingKeepsEveryByte : Obligations.FrameDecodingKeepsEveryByte :=
  fun w now => ⟨(frameRow_idleWindow w now).wire, (frameRow_awaitBuffer w).wire⟩

/-- Settles O6: a command word by the rows of R78 and R79, wire bytes by the conditions of R71 and R72. -/
theorem decodingGivesWellFormedInstructions : Obligations.DecodingGivesWellFormedInstructions :=
  ⟨fun c => ⟨decodeCommand_wf c, decodeCommand_isCommand c⟩,
    fun w now => ⟨(frameRow_idleWindow w now).wf, (frameRow_idleWindow w now).isCommand⟩,
    fun a => ⟨(frameRow_awaitBuffer a).wf, (frameRow_awaitBuffer a).isCommand⟩⟩

/-- Settles O10, by the two cases of the queue. -/
theorem stepExecutesTheOldestCommand : Obligations.StepExecutesTheOldestCommand :=
  ⟨fun _ _ _ h => step_of_cons h, fun _ h => step_of_nil h⟩

end Sys2Proof.Machine
end

section
/-! SUPPORT. Which bytes of the store a STEP and a READ leave (41_correlator.md R112; 60_exceptions.md R153). -/

namespace Sys2Proof.Machine

/-- The event reports a RESPONSE_STORED whose range holds the device's offset: `a` is the first offset, `b` the byte count. -/
def StoresAt (d : Byte) (a : Nat) (e : Event) : Prop :=
  e.code = 10 ∧ e.dev = d ∧ e.a.toNat ≤ a ∧ a < e.a.toNat + e.b.toNat

/-- No buffer shrinks, and a byte that was present is unchanged unless an event reports it stored. -/
def StoresOnlyReported (s : State) (evs : List Event) (t : State) : Prop := StoreGrows s t ∧
  ∀ (d : Byte) (a : Nat), a < s.len d → (∀ e ∈ evs, ¬StoresAt d a e) → t.byte? d a = s.byte? d a

theorem StoresOnlyReported.of_store_eq {s t : State} {evs : List Event} (h : t.store = s.store) :
    StoresOnlyReported s evs t :=
  ⟨.of_store_eq h, fun d a _ _ => State.byte?_congr h d a⟩

theorem StoresOnlyReported.trans {s t u : State} {e₁ e₂ : List Event} (h₁ : StoresOnlyReported s e₁ t)
    (h₂ : StoresOnlyReported t e₂ u) : StoresOnlyReported s (e₁ ++ e₂) u := by
  obtain ⟨hgrows₁, hkept₁⟩ := h₁
  obtain ⟨hgrows₂, hkept₂⟩ := h₂
  refine ⟨hgrows₁.trans hgrows₂, fun d a ha hno => ?_⟩
  have hu : u.byte? d a = t.byte? d a :=
    hkept₂ d a (ha.trans_le (hgrows₁ d).1) fun e he => hno e (List.mem_append_right _ he)
  exact hu.trans (hkept₁ d a ha fun e he => hno e (List.mem_append_left _ he))

/-- A response's RESPONSE_STORED names its base and byte count as they are: both fit the event's fields (R153). -/
theorem storesAt_responseStored {s : State} {n : Nat} (hn : n ≤ 255) (d : Byte) {a : Nat} (hlow : responseBase s ≤ a)
    (hhigh : a < responseBase s + n) : StoresAt d a (.responseStored d (responseBase s) n) := by
  have hbase : (word (responseBase s)).toNat = responseBase s := by
    have := s.pend.start.isLt
    unfold word responseBase
    rw [BitVec.toNat_ofNat, Nat.mod_eq_of_lt (by omega)]
  have hcount : (word n).toNat = n := by rw [word, BitVec.toNat_ofNat, Nat.mod_eq_of_lt (by omega)]
  refine ⟨rfl, rfl, ?_, ?_⟩
  · simpa only [Event.responseStored, hbase] using hlow
  · simpa only [Event.responseStored, hbase, hcount] using hhigh

/-- A completed response of at most 255 bytes writes the range it reports, and no other byte that was present. -/
theorem complete_storesOnlyReported {r : ResponseFrame} {rest : Window} {s t : State} (hlen : r.data.length ≤ 255)
    (h : complete r rest s = .ok t) : StoresOnlyReported s t.out.evt t := by
  refine ⟨complete_storeGrows h, fun d a ha hno => ?_⟩
  obtain ⟨u, hu, hframe, -, -, hother, hbyte, -⟩ := complete_spec r rest s
  cases hu.symm.trans h
  by_cases hd : d = r.dev
  · subst hd
    have hmem : Event.responseStored r.dev (responseBase s) r.data.length ∈ t.out.evt := by
      rw [hframe]
      simp [responseEvents]
    have hout : ¬(responseBase s ≤ a ∧ a < responseBase s + r.data.length ∧ a < t.len r.dev) :=
      fun ⟨hlow, hhigh, _⟩ => hno _ hmem (storesAt_responseStored hlen r.dev hlow hhigh)
    rw [hbyte, if_neg hout, if_pos ha]
  · exact byte?_of_buffer?_eq (hother d hd) a

/-- A response that AwaitStep decodes has at most 255 data bytes: its byte count is one byte (30_encoding.md R66). -/
theorem data_length_le_of_decodeAwait {a : Window} {r : ResponseFrame} {rest : Window}
    (h : decodeAwait a = .response r rest) : r.data.length ≤ 255 := by
  rcases decodeAwait_cases a with ⟨-, hd⟩ | ⟨e, rest', -, -, hd⟩ | ⟨dev, fc, bc, rest', -, -, -, -, hd⟩ |
    ⟨r', rest', -, -, hlen, hd⟩
  · cases hd.symm.trans h
  · cases hd.symm.trans h
  · cases hd.symm.trans h
  · cases hd.symm.trans h
    exact hlen

theorem awaitStep_storesOnlyReported {w : Window} {s t : State} (h : awaitStep w s = .ok t) :
    StoresOnlyReported s t.out.evt t := by
  rcases awaitStep_cases w s with ⟨a, -, hrun⟩ | ⟨e, rest, -, hrun⟩ | ⟨r, rest, hd, hrun⟩
  · cases hrun.symm.trans h
    exact .of_store_eq rfl
  · cases hrun.symm.trans h
    exact .of_store_eq rfl
  · exact complete_storesOnlyReported (data_length_le_of_decodeAwait hd) (hrun.symm.trans h)

theorem correlate_storesOnlyReported {w : Window} {now : Nat} {s t : State} (h : correlate w now s = .ok t) :
    StoresOnlyReported s t.out.evt t := by
  rcases correlate_cases w now s with ⟨-, hrun⟩ | ⟨-, -, hrun⟩ | ⟨-, -, hrun⟩
  · cases hrun.symm.trans h
    exact .of_store_eq (idleStep_frame _ _ _).1
  · exact awaitStep_storesOnlyReported (s := s.clearOut) (hrun.symm.trans h)
  · cases hrun.symm.trans h
    exact .of_store_eq (idleStep_frame _ _ _).1

theorem readWindow_storesOnlyReported {w : Window} {now : Nat} {s t : State} (h : readWindow w now s = .ok t) :
    StoresOnlyReported s t.out.evt t :=
  readWindow_of_step (T := StoresOnlyReported) (fun _ => .of_store_eq rfl) .trans (fun _ h => h)
    correlate_storesOnlyReported h

end Sys2Proof.Machine
end

section
/-! SUPPORT. The parts of the invariant, one by one, over every command (10_state.md R24, R29). -/

namespace Sys2Proof.Machine

theorem State.inv_iff (s : State) :
    s.inv = true ↔ Store.wf s.store = true ∧ s.asmOk = true ∧ s.frameOk = true := by
  simp only [State.inv, Bool.and_eq_true, and_assoc]

/-! ### The store's canonical form -/

theorem awaitStep_keeps_storeWf {w : Window} {s t : State} (h : awaitStep w s = .ok t) (hs : Store.wf s.store = true) :
    Store.wf t.store = true := by
  rcases awaitStep_cases w s with ⟨a, -, hrun⟩ | ⟨e, rest, -, hrun⟩ | ⟨r, rest, -, hrun⟩
  · cases hrun.symm.trans h
    exact hs
  · cases hrun.symm.trans h
    exact hs
  · obtain ⟨u, hu, -, -, -, -, -, hwf⟩ := complete_spec r rest s
    cases hu.symm.trans (hrun.symm.trans h)
    exact hwf hs

theorem correlate_keeps_storeWf {w : Window} {now : Nat} {s t : State} (h : correlate w now s = .ok t)
    (hs : Store.wf s.store = true) : Store.wf t.store = true := by
  rcases correlate_cases w now s with ⟨-, hrun⟩ | ⟨-, -, hrun⟩ | ⟨-, -, hrun⟩
  · cases hrun.symm.trans h
    rwa [(idleStep_frame _ _ _).1]
  · exact awaitStep_keeps_storeWf (hrun.symm.trans h) hs
  · cases hrun.symm.trans h
    rwa [(idleStep_frame _ _ _).1]

theorem exec_command_keeps_storeWf {i : Instr} {s t : State} (hi : i.isCommand = true) (h : exec i s = .next t)
    (hs : Store.wf s.store = true) : Store.wf t.store = true := by
  cases i with
  | step w now => exact correlate_keeps_storeWf (outcome_eq_next.mp h) hs
  | read w now =>
    exact readWindow_of_step (T := fun s _ t => Store.wf s.store = true → Store.wf t.store = true) (fun _ hs => hs)
      (fun h₁ h₂ hs => h₂ (h₁ hs)) (fun _ h => h) correlate_keeps_storeWf (outcome_eq_next.mp h) hs
  | extend d n =>
    cases h
    exact Store.wf_extend hs d n.toNat
  | reset =>
    cases (exec_reset s).symm.trans h
    exact Store.wf_reset
  | aResponse => cases hi
  | _ => rwa [exec_keeps_store h (by simp) (by simp) (by simp) (by simp)]

/-! ### The held request frame -/

theorem State.frameOk_congr {s t : State} (h : t.pend = s.pend) : t.frameOk = s.frameOk := by
  simp only [State.frameOk, h]

/-- Once the request is no longer pending only the frame's width is asked for. -/
theorem frameOk_of_released {s t : State} (h : t.pend = { s.pend with valid := false }) (hs : s.frameOk = true) :
    t.frameOk = true := by
  simp only [State.frameOk, Bool.and_eq_true] at hs
  obtain ⟨hlen, -⟩ := hs
  simp [State.frameOk, h, of_decide_eq_true hlen]

/-- A captured frame is the bytes of the captured fields (R24; 41_correlator.md R101). -/
theorem frameOk_capture (q : RequestFrame) (rest : Window) (now : Nat) (s : State) :
    (capture q rest now s).frameOk = true := by
  have hfields : q.bytes.take 6 = RequestFrame.head ⟨q.dev, q.start, q.count, 0⟩ := q.take_bytes
  simp [State.frameOk, capture, q.bytes_length, hfields]

theorem idleStep_keeps_frameOk (w : Window) (now : Nat) {s : State} (hs : s.frameOk = true) :
    (idleStep w now s).frameOk = true := by
  by_cases hrequest : ∃ q rest, decodeIdle w = .request q rest
  · obtain ⟨q, rest, hd⟩ := hrequest
    rw [idleStep, hd]
    exact frameOk_capture q rest now s
  · obtain ⟨hpend, -⟩ := idleStep_keeps_pend now s fun q rest hd => hrequest ⟨q, rest, hd⟩
    rwa [State.frameOk_congr hpend]

theorem awaitStep_keeps_frameOk {w : Window} {s t : State} (h : awaitStep w s = .ok t) (hs : s.frameOk = true) :
    t.frameOk = true := by
  rcases awaitStep_cases w s with ⟨a, -, hrun⟩ | ⟨e, rest, -, hrun⟩ | ⟨r, rest, -, hrun⟩
  · cases hrun.symm.trans h
    exact hs
  · cases hrun.symm.trans h
    exact frameOk_of_released rfl hs
  · obtain ⟨u, hu, hframe, -⟩ := complete_spec r rest s
    cases hu.symm.trans (hrun.symm.trans h)
    exact frameOk_of_released (by rw [hframe]) hs

theorem correlate_keeps_frameOk {w : Window} {now : Nat} {s t : State} (h : correlate w now s = .ok t)
    (hs : s.frameOk = true) : t.frameOk = true := by
  rcases correlate_cases w now s with ⟨-, hrun⟩ | ⟨-, -, hrun⟩ | ⟨-, -, hrun⟩
  · cases hrun.symm.trans h
    exact idleStep_keeps_frameOk w now (frameOk_of_released (s := s) rfl hs)
  · exact awaitStep_keeps_frameOk (s := s.clearOut) (hrun.symm.trans h) hs
  · cases hrun.symm.trans h
    exact idleStep_keeps_frameOk w now (s := s.clearOut) hs

theorem exec_command_keeps_frameOk {i : Instr} {s t : State} (hi : i.isCommand = true) (h : exec i s = .next t)
    (hs : s.frameOk = true) : t.frameOk = true := by
  have hstep := exec_command_of_step (T := fun s _ t => s.frameOk = true → t.frameOk = true)
    (fun hp _ _ hs => by rwa [State.frameOk_congr hp]) (fun h₁ h₂ hs => h₂ (h₁ hs)) correlate_keeps_frameOk hi h
  rcases hstep with rfl | hkept
  · cases (exec_reset s).symm.trans h
    rfl
  · exact hkept hs

theorem exec_command_keeps_inv {i : Instr} {s t : State} (hi : i.isCommand = true) (h : exec i s = .next t)
    (hs : s.inv = true) : t.inv = true := by
  rw [State.inv_iff] at hs ⊢
  obtain ⟨hstore, hasm, hframe⟩ := hs
  exact ⟨exec_command_keeps_storeWf hi h hstore, exec_command_keeps_asmOk hi h hasm,
    exec_command_keeps_frameOk hi h hframe⟩

end Sys2Proof.Machine
end

section
/-! SUPPORT. A request and its response seen one after the other (41_correlator.md R118). -/

namespace Sys2Proof.Machine

/-- In Idle a window that begins with a request captures it, whatever follows. -/
theorem exec_step_request {s : State} (hs : s.pend.valid = false) (q : RequestFrame) (rest : Window) (now : Nat) :
    exec (.step (q.bytes ++ rest) now) s = .next (capture q rest now s.clearOut) := by
  refine outcome_eq_next.mpr ?_
  rw [correlate_of_idle hs, idleStep, decodeIdle_request]

/-- In time and with nothing held, a window that begins with a complete response runs that response. -/
theorem exec_step_response {s : State} {now : Nat} (hv : s.pend.valid = true) (hasm : s.asm = [])
    (htime : now - s.pend.time ≤ s.cfg.reqTimeout.toNat) {r : ResponseFrame} (hfc : isExceptionCode r.fc = false)
    (hlen : r.data.length ≤ 255) (rest : Window) :
    exec (.step (r.bytes ++ rest) now) s = exec (.aResponse r rest) s.clearOut := by
  have hd : decodeAwait (s.clearOut.asm ++ (r.bytes ++ rest)) = .response r rest := by
    rw [State.clearOut_asm, hasm, List.nil_append, decodeAwait_response hfc hlen]
  simp only [exec, execStep, execAResponse]
  rw [correlate_of_inTime hv htime, awaitStep, hd]

end Sys2Proof.Machine
end

section
/-! PROOFS. The statements about what STEP and READ store (41_correlator.md), and about the invariant (10_state.md). -/

namespace Sys2Proof.Machine

/-- Settles O24: `StoresOnlyReported` holds of every STEP and composes over READ. -/
theorem storedBytesAreThoseReported : Obligations.StoredBytesAreThoseReported := by
  intro i w now s t hi h d a ha hno
  have hstored : StoresOnlyReported s t.out.evt t := by
    rcases hi with rfl | rfl
    · exact correlate_storesOnlyReported (outcome_eq_next.mp h)
    · exact readWindow_storesOnlyReported (outcome_eq_next.mp h)
  obtain ⟨-, hkept⟩ := hstored
  exact hkept d a ha fun e he ⟨hcode, hdev, hrange⟩ => hno e he hcode hdev hrange

/-- Settles O27: the first STEP captures the request and leaves the response as REM, and the second, with the same NOW and so in
time, stores it. -/
theorem observedExchangeIsStored : Obligations.ObservedExchangeIsStored := by
  intro q r now s hstore hidle hfc hlen
  obtain ⟨-, readLast, readMore⟩ := readRunsStepsUntilNoRemainder
  set s₁ := capture q r.bytes now s.clearOut with hs₁
  have hstore₁ : Store.wf s₁.clearOut.store = true := by
    rw [State.clearOut_store, hs₁, (capture_frame _ _ _ _).1]
    exact hstore
  have hresponse : exec (.step r.bytes now) s₁ = exec (.aResponse r []) s₁.clearOut := by
    have htime : now - s₁.pend.time ≤ s₁.cfg.reqTimeout.toNat := (Nat.sub_self now).trans_le (Nat.zero_le _)
    simpa using exec_step_response (s := s₁) rfl rfl htime ((isExceptionCode_eq_false_iff _).mpr hfc) hlen []
  obtain ⟨t, hrun, hvalid, hframe, -, -, -, hdata, -⟩ :=
    completeResponseIsStored r [] s₁.clearOut (2 * q.start.toNat) r.data.length _ hstore₁ rfl rfl rfl
  have hread : exec (.read r.bytes now) s₁ = .next { t with out := { Ports.default with evt := t.out.evt } } :=
    readLast r.bytes now s₁ t (List.cons_ne_nil _ _) (hresponse.trans hrun) (by rw [hframe])
  have hexchange := readMore (q.bytes ++ r.bytes) now s s₁ _ (List.cons_ne_nil _ _)
    (exec_step_request hidle q r.bytes now) (List.cons_ne_nil _ _) hread
  refine ⟨_, hexchange, hvalid, by rw [hframe], fun k hk hoffset => ?_⟩
  refine (State.byte?_congr (s := t) rfl _ _).trans ?_
  rw [hdata _ (by omega) (by omega) (by omega), Nat.add_sub_cancel_left]

/-- Settles O28: at reset nothing is pending, held or stored. -/
theorem resetStateMeetsTheInvariant : Obligations.ResetStateMeetsTheInvariant := rfl

/-- Settles O29: waiting changes nothing, and every command keeps each part of the invariant. -/
theorem stepKeepsTheInvariant : Obligations.StepKeepsTheInvariant := by
  intro s t hs h
  rcases step_cases h with ⟨-, rfl⟩ | ⟨c, rest, -, hrun⟩
  · exact hs
  · exact exec_command_keeps_inv (decodeCommand_isCommand c) hrun hs

end Sys2Proof.Machine
end
